-- ==== Sys2Proof/Word.lean ====
section
/-! DEFINITION. The word and byte types (spec/00_scope.md R10, R12). -/

namespace Sys2Proof

/-- A 32-bit unsigned value: a register, the pc, an address or an instruction word (R12, XLEN and
ILEN of R10). Its `+` and `-` are `u32` of the integer operation. -/
abbrev Word := BitVec 32

/-- An 8-bit value: the addressable unit of memory (spec/20_memory.md R34). -/
abbrev Byte := BitVec 8

end Sys2Proof
end

