-- ==== Sys2Proof/Config.lean ====
section
/-! DEFINITION. The parameters of an instance that the spec leaves open or keeps as a switch
(spec/00_scope.md R10). They are fixed for the life of an instance (spec/10_state.md R31). -/

namespace Sys2Proof

/-- The parameters of one instance (R10). They are no state of the machine: `State` carries them
unchanged so that every statement over all states covers every setting (DESIGN CHOICE, log 1). -/
structure Config where
  /-- MEM_CAPACITY: the number of bytes of memory, 0 to 2^32 (D1, R48). -/
  memCapacity : Nat
  /-- X0_HARDWIRED: register 0 reads as 0 and discards writes (D2, R15). -/
  x0Hardwired : Bool
  /-- SLT_SIGNED: SLT and SLTI compare as two's-complement values (D7, R102). -/
  sltSigned : Bool
  deriving DecidableEq, Repr

/-- The setting the spec names as its default or decision: 1 MiB, register 0 ordinary, signed
set-less-than (R10; DESIGN CHOICE, log 2, 3 and 4). -/
def Config.default : Config :=
  { memCapacity := 0x100000, x0Hardwired := false, sltSigned := true }

/-- The capacities R10 admits: 0 <= MEM_CAPACITY <= 2^32. -/
abbrev Config.wf (c : Config) : Prop := c.memCapacity ≤ 2 ^ 32

end Sys2Proof
end

