-- ==== Sys2Proof/Machine/State.lean ====
section
/-! DEFINITION. The state of the core (spec/10_state.md), its faults, and the state after reset. -/

namespace Sys2Proof.Machine

/-- What an access was made for (spec/60_exceptions.md R135, D23). -/
inductive Access where
  | fetch
  | load
  | store
  deriving DecidableEq, Repr

/-- The two faults of the core (R134, R137). A step that raises one takes it: `status` records it and
nothing else changes (R139). A step of a core that has faulted answers the recorded fault as its
outcome (R140, R155; DESIGN CHOICE, log 6). -/
inductive Fault where
  /-- OutOfBounds(addr, n, access): raised by the fetch, LW and SW when `addr + n > MEM_CAPACITY`
  (R135). Safe: the spec raises it exactly there. -/
  | outOfBounds (addr : Word) (n : Nat) (access : Access)
  /-- DecodeError(opcode): raised by the dispatch for a word that is none of the 22 instructions
  (R136). Safe: the spec raises it exactly there. -/
  | decodeError (opcode : BitVec 7)
  deriving DecidableEq, Repr

/-- Why a step has no meaning. -/
inductive Refusal where
  /-- An instruction without a meaning yet. No arm of `exec` answers it: safe. -/
  | notModelled (mnemonic : String)
  deriving DecidableEq, Repr

/-- The status of the core (R24). -/
inductive Status where
  | running
  | halted
  | faulted (fault : Fault)
  deriving DecidableEq, Repr

/-- Memory as (address, byte) pairs, kept in the canonical form `Memory.wf` (R25, R34). -/
abbrev Memory := List Host.Cell

/-- The whole state of the core (R31), with the parameters of the instance. -/
structure State where
  /-- `x[0]` to `x[31]` (R13). Read and written through `State.readReg` and `State.writeReg`. -/
  regs : Vector Word 32
  /-- The program counter (R20, R21). -/
  pc : Word
  /-- The memory behind the memory interface (R25). -/
  mem : Memory
  /-- The halt flag (R23). -/
  halted : Bool
  /-- Running, Halted or Faulted (R24). -/
  status : Status
  /-- The parameters of the instance: no state of the machine, changed by no step (R31, log 1). -/
  cfg : Config
  deriving DecidableEq, Repr

/-- The state after reset of an instance with the given parameters (R157, R32): total, nothing of an
earlier run remains (R158). -/
def State.resetWith (cfg : Config) : State :=
  { regs := Vector.replicate 32 0
    pc := 0
    mem := []
    halted := false
    status := .running
    cfg := cfg }

/-- The state after reset with the parameters at the spec's defaults (R157, R10). -/
def State.reset : State := State.resetWith Config.default

end Sys2Proof.Machine
end

