-- ==== Sys2Proof/Syntax.lean ====
section
/-! DEFINITION. The 22 instructions (spec/00_scope.md R3, spec/opcode_table.json), one constructor per
row. Immediates are held as the fields of the word, before sign extension. -/

namespace Sys2Proof

/-- The index of a general register, 0 to 31 (spec/10_state.md R13, R18). -/
abbrev RegIdx := Fin 32

/-- An instruction of the core. Operand order is that of the assembly forms of
spec/30_encoding.md R80, the base register before the offset in LW and SW. -/
inductive Instr where
  /-- ADD rd, rs1, rs2 (R99). -/
  | add (rd rs1 rs2 : RegIdx)
  /-- SUB rd, rs1, rs2 (R100). -/
  | sub (rd rs1 rs2 : RegIdx)
  /-- SLL rd, rs1, rs2 (R101). -/
  | sll (rd rs1 rs2 : RegIdx)
  /-- SLT rd, rs1, rs2 (R102). -/
  | slt (rd rs1 rs2 : RegIdx)
  /-- XOR rd, rs1, rs2 (R103). -/
  | xor (rd rs1 rs2 : RegIdx)
  /-- SRL rd, rs1, rs2 (R104). -/
  | srl (rd rs1 rs2 : RegIdx)
  /-- OR rd, rs1, rs2 (R105). -/
  | or (rd rs1 rs2 : RegIdx)
  /-- AND rd, rs1, rs2 (R106). -/
  | and (rd rs1 rs2 : RegIdx)
  /-- ADDI rd, rs1, imm (R109). -/
  | addi (rd rs1 : RegIdx) (imm : BitVec 12)
  /-- SLLI rd, rs1, shamt (R110). -/
  | slli (rd rs1 : RegIdx) (shamt : BitVec 5)
  /-- SLTI rd, rs1, imm (R111). -/
  | slti (rd rs1 : RegIdx) (imm : BitVec 12)
  /-- XORI rd, rs1, imm (R112). -/
  | xori (rd rs1 : RegIdx) (imm : BitVec 12)
  /-- SRLI rd, rs1, shamt (R113). -/
  | srli (rd rs1 : RegIdx) (shamt : BitVec 5)
  /-- ORI rd, rs1, imm (R114). -/
  | ori (rd rs1 : RegIdx) (imm : BitVec 12)
  /-- ANDI rd, rs1, imm (R115). -/
  | andi (rd rs1 : RegIdx) (imm : BitVec 12)
  /-- LW rd, imm(rs1) (R118). -/
  | lw (rd rs1 : RegIdx) (imm : BitVec 12)
  /-- SW rs2, imm(rs1) (R119). -/
  | sw (rs2 rs1 : RegIdx) (imm : BitVec 12)
  /-- BEQ rs1, rs2, offset; the whole 13-bit offset, bit 0 included (R123, R65). -/
  | beq (rs1 rs2 : RegIdx) (offset : BitVec 13)
  /-- BNE rs1, rs2, offset (R124, R65). -/
  | bne (rs1 rs2 : RegIdx) (offset : BitVec 13)
  /-- LUI rd, imm20 (R126, R66). -/
  | lui (rd : RegIdx) (imm20 : BitVec 20)
  /-- JAL rd, offset; the whole 21-bit offset, bit 0 included (R128, R67). -/
  | jal (rd : RegIdx) (offset : BitVec 21)
  /-- ECALL: its 25 other bits are ignored and so are no operands (R131, R75). -/
  | ecall
  deriving DecidableEq, Repr

end Sys2Proof
end

