-- ==== Sys2Proof/Machine/Ops.lean ====
section
/-! DEFINITION. The operations shared by all meanings: memory, general registers, the end of an
instruction, and raising a fault. -/

namespace Sys2Proof.Machine

/-! Memory cells (spec/20_memory.md R34, R46). -/

/-- What an address that no entry lists reads as: memory is zero at reset (spec/10_state.md R32;
DEDUCED, log 7). -/
def unlistedByte : Byte := 0

/-- The canonical form: addresses strictly rising, no entry equal to what an unlisted address reads
as. -/
abbrev Memory.wf (m : Memory) : Prop :=
  m.Pairwise (fun c d => c.1 < d.1) ∧ ∀ c ∈ m, c.2 ≠ unlistedByte

/-- `mem[a]` (R25). -/
def Memory.read : Memory → Nat → Byte
  | [], _ => unlistedByte
  | c :: m, a => if a = c.1 then c.2 else Memory.read m a

/-- An entry in front of a memory whose addresses are all higher, in the canonical form. -/
def Memory.cons (a : Nat) (b : Byte) (m : Memory) : Memory :=
  if b = unlistedByte then m else (a, b) :: m

/-- `mem[a] <- b`: changes that byte only (R36), and keeps the canonical form. -/
def Memory.write : Memory → Nat → Byte → Memory
  | [], a, b => Memory.cons a b []
  | c :: m, a, b =>
    if a < c.1 then Memory.cons a b (c :: m)
    else if a = c.1 then Memory.cons a b m
    else c :: Memory.write m a b

/-! Byte strings and little-endian values (R35, R36, R39). -/

/-- The bytes at `a`, `a + 1`, ..., `n` of them, the lowest address first. -/
def Memory.readBytes (m : Memory) (a : Nat) : Nat → List Byte
  | 0 => []
  | n + 1 => m.read a :: Memory.readBytes m (a + 1) n

/-- `mem[a + i] <- bytes[i]` for every byte of the string (R38). -/
def Memory.writeBytes (m : Memory) (a : Nat) : List Byte → Memory
  | [] => m
  | b :: bytes => Memory.writeBytes (m.write a b) (a + 1) bytes

/-- The value of a byte string, byte 0 the least significant (R35, R39). -/
def littleEndian : List Byte → Nat
  | [] => 0
  | b :: bytes => b.toNat + 256 * littleEndian bytes

/-- The low `n` bytes of a value, byte 0 the least significant (R36, R39). -/
def littleEndianBytes : Nat → Nat → List Byte
  | 0, _ => []
  | n + 1, v => BitVec.ofNat 8 v :: littleEndianBytes n (v / 256)

/-! The memory interface (R34 to R37, R55). -/

/-- The widths of an access: 1, 2 or 4 bytes (R44, R55). -/
inductive Width where
  | byte
  | half
  | word
  deriving DecidableEq, Repr

/-- How many bytes an access of the width touches (R44). -/
def Width.bytes : Width → Nat
  | .byte => 1
  | .half => 2
  | .word => 4

/-- The bounds check, an integer comparison that does not wrap (R37). -/
def State.inBounds (s : State) (addr n : Nat) : Bool := addr + n ≤ s.cfg.memCapacity

/-- `MemRead(addr, n)` (R35): the unsigned `8n`-bit value, held in 32 bits (DEDUCED, log 12). -/
def State.memRead (s : State) (addr : Word) (width : Width) (access : Access) : Except Fault Word :=
  if s.inBounds addr.toNat width.bytes then
    .ok (BitVec.ofNat 32 (littleEndian (s.mem.readBytes addr.toNat width.bytes)))
  else .error (.outOfBounds addr width.bytes access)

/-- `MemWrite(addr, n, v)` (R36): the whole range is checked before any byte is written. -/
def State.memWrite (s : State) (addr : Word) (width : Width) (v : Word) (access : Access) :
    Except Fault State :=
  if s.inBounds addr.toNat width.bytes then
    .ok { s with mem := s.mem.writeBytes addr.toNat (littleEndianBytes width.bytes v.toNat) }
  else .error (.outOfBounds addr width.bytes access)

/-! General registers (spec/10_state.md R15 to R17). -/

/-- Whether register `i` is the hard-wired zero under the instance's policy (R15). -/
def State.isHardwired (s : State) (i : RegIdx) : Bool := s.cfg.x0Hardwired && i == 0

/-- `x[i]` (R16). -/
def State.readReg (s : State) (i : RegIdx) : Word := if s.isHardwired i then 0 else s.regs[i]

/-- `x[i] <- v` (R17). -/
def State.writeReg (s : State) (i : RegIdx) (v : Word) : State :=
  if s.isHardwired i then s else { s with regs := s.regs.set i v }

/-! The end of an instruction, and faults (spec/40_instruction_cycle.md R85, R91, R93). -/

/-- The last two lines of a step that raised nothing (R85): `pc <- next_pc`, and `status <- Halted` if
the halt flag is set, whatever the instruction (DEDUCED, log 11). -/
def State.complete (s : State) (nextPc : Word) : State :=
  { s with pc := nextPc, status := if s.halted then .halted else s.status }

/-- `raise` (spec/60_exceptions.md R139): status becomes Faulted, nothing else changes
(DEDUCED that this is a next state, log 5). There is no
trap entry, saved register or handler (R141) and no return from a fault (R145); only a reset leaves
Faulted (R159). -/
def State.raiseFault (s : State) (f : Fault) : State := { s with status := .faulted f }

/-- `halted <- true` (R23, R131). -/
def State.setHalted (s : State) : State := { s with halted := true }

/-- `pc + 4` modulo 2^32: the pc after an instruction that is no taken branch or jump (R22, R89), and
the link value of JAL (R128). -/
def State.pcPlus4 (s : State) : Word := s.pc + 4

/-- The end of an instruction whose whole effect is `x[rd] <- v` and `pc <- pc + 4` (R98, R108,
R126). -/
def State.finishWith (s : State) (rd : RegIdx) (v : Word) : State :=
  (s.writeReg rd v).complete s.pcPlus4

end Sys2Proof.Machine
end

