-- ==== Sys2Proof/Machine/Flags.lean ====
section
/-! DEFINITION. The core has no flags and no condition codes (spec/10_state.md R27): this file holds
the comparisons that stand in their place, the ordering of SLT and SLTI and the condition of the
branches. -/

namespace Sys2Proof.Machine

/-- The ordering of SLT and SLTI: two's complement or natural numbers, as SLT_SIGNED says
(spec/41_alu_register.md R102, spec/42_alu_immediate.md R111). -/
def lessThan (cfg : Config) (a b : Word) : Bool := if cfg.sltSigned then a.slt b else a.ult b

/-- `1 if lt else 0`, as a 32-bit value (R102). -/
def truthWord (b : Bool) : Word := if b then 1 else 0

/-- The condition of BEQ, and negated of BNE: the two values bit for bit (spec/44_branch.md R122). -/
def sameValue (a b : Word) : Bool := a == b

end Sys2Proof.Machine
end

