-- ==== Sys2Proof/WellFormed.lean ====
section
/-! DEFINITION. Which instructions an encoding exists for (spec/30_encoding.md R79, R82): every operand
the types admit, but for odd branch and jump offsets. -/

namespace Sys2Proof

/-- "u[0] must be 0" of the B and J rows of R82: an odd offset cannot be encoded (DESIGN CHOICE that
the offset is held with bit 0, log 14). -/
def evenOffset {n : Nat} (offset : BitVec n) : Bool := !offset.getLsbD 0

/-- Whether the instruction has an encoding (R82; register fields and the other immediates never
make one ill-formed, R79). -/
def Instr.wellFormed : Instr → Bool
  | .add _ _ _ => true
  | .sub _ _ _ => true
  | .sll _ _ _ => true
  | .slt _ _ _ => true
  | .xor _ _ _ => true
  | .srl _ _ _ => true
  | .or _ _ _ => true
  | .and _ _ _ => true
  | .addi _ _ _ => true
  | .slli _ _ _ => true
  | .slti _ _ _ => true
  | .xori _ _ _ => true
  | .srli _ _ _ => true
  | .ori _ _ _ => true
  | .andi _ _ _ => true
  | .lw _ _ _ => true
  | .sw _ _ _ => true
  | .beq _ _ offset => evenOffset offset
  | .bne _ _ offset => evenOffset offset
  | .lui _ _ => true
  | .jal _ offset => evenOffset offset
  | .ecall => true

end Sys2Proof
end

