-- ==== Sys2Proof/Decode.lean ====
section
/-! DEFINITION. Fields, immediates, the decoder with its dispatch table, and the encoder
(spec/30_encoding.md). -/

namespace Sys2Proof

/-! Fields of the word (R57). -/

/-- `word[6:0]` (R57). -/
def opcodeOf (w : Word) : BitVec 7 := w.extractLsb' 0 7

/-- `word[11:7]` (R57). -/
def rdOf (w : Word) : RegIdx := (w.extractLsb' 7 5).toFin

/-- `word[14:12]` (R57). -/
def funct3Of (w : Word) : BitVec 3 := w.extractLsb' 12 3

/-- `word[19:15]` (R57). -/
def rs1Of (w : Word) : RegIdx := (w.extractLsb' 15 5).toFin

/-- `word[24:20]` (R57). -/
def rs2Of (w : Word) : RegIdx := (w.extractLsb' 20 5).toFin

/-- `word[31:25]` (R57). -/
def funct7Of (w : Word) : BitVec 7 := w.extractLsb' 25 7

/-- `word[24:20]` as the shift amount of SLLI and SRLI (R59, R110). -/
def shamtOf (w : Word) : BitVec 5 := w.extractLsb' 20 5

/-! Immediate fields, before sign extension (R63 to R67). -/

/-- `fI = word[31:20]` (R63). -/
def fieldI (w : Word) : BitVec 12 := w.extractLsb' 20 12

/-- `fS`: `word[31:25]` above `word[11:7]` (R64). -/
def fieldS (w : Word) : BitVec 12 := w.extractLsb' 25 7 ++ w.extractLsb' 7 5

/-- `fB`: `word[31]`, `word[7]`, `word[30:25]`, `word[11:8]` and a 0 bit (R65). -/
def fieldB (w : Word) : BitVec 13 :=
  w.extractLsb' 31 1 ++ w.extractLsb' 7 1 ++ w.extractLsb' 25 6 ++ w.extractLsb' 8 4 ++ 0#1

/-- The 20 bits `word[31:12]` (R66). -/
def fieldU (w : Word) : BitVec 20 := w.extractLsb' 12 20

/-- `fJ`: `word[31]`, `word[19:12]`, `word[20]`, `word[30:21]` and a 0 bit (R67). -/
def fieldJ (w : Word) : BitVec 21 :=
  w.extractLsb' 31 1 ++ w.extractLsb' 12 8 ++ w.extractLsb' 20 1 ++ w.extractLsb' 21 10 ++ 0#1

/-! The five 32-bit immediates of a word (R60, R61): defined for every word, whatever its opcode. -/

/-- The 32-bit value of a 12-bit immediate field: sign-extended (R61, R63, R64). -/
def immediate12 (field : BitVec 12) : Word := field.signExtend 32

/-- The 32-bit value of a 13-bit branch offset: sign-extended (R61, R65). -/
def immediate13 (field : BitVec 13) : Word := field.signExtend 32

/-- The 32-bit value of an upper immediate: 12 zero bits below it (R66). -/
def immediateU (field : BitVec 20) : Word := field ++ 0#12

/-- The 32-bit value of a 21-bit jump offset: sign-extended (R61, R67). -/
def immediate21 (field : BitVec 21) : Word := field.signExtend 32

/-- `immI` (R63). -/
def immI (w : Word) : Word := immediate12 (fieldI w)

/-- `immS` (R64). -/
def immS (w : Word) : Word := immediate12 (fieldS w)

/-- `immB` (R65). -/
def immB (w : Word) : Word := immediate13 (fieldB w)

/-- `immU` (R66). -/
def immU (w : Word) : Word := immediateU (fieldU w)

/-- `immJ` (R67). -/
def immJ (w : Word) : Word := immediate21 (fieldJ w)

/-! Dispatch (R68 to R76). -/

/-- Why a word or byte string is no instruction. -/
inductive DecodeReject where
  /-- Fewer than four bytes were given. No step raises it: the fetch reads four bytes or faults. -/
  | truncated
  /-- Case 1 of R76: the opcode is none of the eight. The step raises DecodeError (safe: R92). -/
  | undefinedOpcode (opcode : BitVec 7)
  /-- Cases 2 to 6 of R76: the function-select bits have no entry under this opcode. The step raises
  DecodeError (safe: R92). -/
  | undefinedFunct (opcode : BitVec 7)
  deriving DecidableEq, Repr

/-- Register-register group, opcode 0x33 (R70); all seven `funct7` bits are compared (D10). -/
def decodeRegReg (w : Word) : Except DecodeReject Instr :=
  match funct7Of w, funct3Of w with
  | 0b0000000#7, 0b000#3 => .ok (.add (rdOf w) (rs1Of w) (rs2Of w))
  | 0b0100000#7, 0b000#3 => .ok (.sub (rdOf w) (rs1Of w) (rs2Of w))
  | 0b0000000#7, 0b001#3 => .ok (.sll (rdOf w) (rs1Of w) (rs2Of w))
  | 0b0000000#7, 0b010#3 => .ok (.slt (rdOf w) (rs1Of w) (rs2Of w))
  | 0b0000000#7, 0b100#3 => .ok (.xor (rdOf w) (rs1Of w) (rs2Of w))
  | 0b0000000#7, 0b101#3 => .ok (.srl (rdOf w) (rs1Of w) (rs2Of w))
  | 0b0000000#7, 0b110#3 => .ok (.or (rdOf w) (rs1Of w) (rs2Of w))
  | 0b0000000#7, 0b111#3 => .ok (.and (rdOf w) (rs1Of w) (rs2Of w))
  | _, _ => .error (.undefinedFunct (opcodeOf w))

/-- A shift by a constant: `word[31:25]` must be 0000000 (R71, D10). -/
def decodeShiftImm (w : Word) (i : Instr) : Except DecodeReject Instr :=
  if funct7Of w = 0b0000000#7 then .ok i else .error (.undefinedFunct (opcodeOf w))

/-- Register-immediate group, opcode 0x13 (R71). -/
def decodeRegImm (w : Word) : Except DecodeReject Instr :=
  match funct3Of w with
  | 0b000#3 => .ok (.addi (rdOf w) (rs1Of w) (fieldI w))
  | 0b001#3 => decodeShiftImm w (.slli (rdOf w) (rs1Of w) (shamtOf w))
  | 0b010#3 => .ok (.slti (rdOf w) (rs1Of w) (fieldI w))
  | 0b100#3 => .ok (.xori (rdOf w) (rs1Of w) (fieldI w))
  | 0b101#3 => decodeShiftImm w (.srli (rdOf w) (rs1Of w) (shamtOf w))
  | 0b110#3 => .ok (.ori (rdOf w) (rs1Of w) (fieldI w))
  | 0b111#3 => .ok (.andi (rdOf w) (rs1Of w) (fieldI w))
  | _ => .error (.undefinedFunct (opcodeOf w))

/-- Load group, opcode 0x03 (R72, C1). -/
def decodeLoad (w : Word) : Except DecodeReject Instr :=
  match funct3Of w with
  | 0b010#3 => .ok (.lw (rdOf w) (rs1Of w) (fieldI w))
  | _ => .error (.undefinedFunct (opcodeOf w))

/-- Store group, opcode 0x23 (R73, D11). -/
def decodeStore (w : Word) : Except DecodeReject Instr :=
  match funct3Of w with
  | 0b010#3 => .ok (.sw (rs2Of w) (rs1Of w) (fieldS w))
  | _ => .error (.undefinedFunct (opcodeOf w))

/-- Branch group, opcode 0x63 (R74). -/
def decodeBranch (w : Word) : Except DecodeReject Instr :=
  match funct3Of w with
  | 0b000#3 => .ok (.beq (rs1Of w) (rs2Of w) (fieldB w))
  | 0b001#3 => .ok (.bne (rs1Of w) (rs2Of w) (fieldB w))
  | _ => .error (.undefinedFunct (opcodeOf w))

/-- Decode and dispatch of a word (R87, R88): the instruction whose row it matches, or why there is
none. Total; the step turns a rejection into DecodeError (R92, C5). LUI, JAL and ECALL are selected
by the opcode alone (R75). -/
def decode (w : Word) : Except DecodeReject Instr :=
  match opcodeOf w with
  | 0x33#7 => decodeRegReg w
  | 0x13#7 => decodeRegImm w
  | 0x03#7 => decodeLoad w
  | 0x23#7 => decodeStore w
  | 0x63#7 => decodeBranch w
  | 0x37#7 => .ok (.lui (rdOf w) (fieldU w))
  | 0x6F#7 => .ok (.jal (rdOf w) (fieldJ w))
  | 0x73#7 => .ok .ecall
  | _ => .error (.undefinedOpcode (opcodeOf w))

/-! Byte order of instruction words (R40, R58). -/

/-- The word whose bytes, from the lowest address up, are given: little-endian (R40). -/
def wordOfBytes (b0 b1 b2 b3 : Byte) : Word := b3 ++ b2 ++ b1 ++ b0

/-- The four bytes of a word from the lowest address up (R39, R40). -/
def bytesOfWord (w : Word) : List Byte :=
  [w.extractLsb' 0 8, w.extractLsb' 8 8, w.extractLsb' 16 8, w.extractLsb' 24 8]

/-- The instruction in the first four bytes of a byte string, with the rest of it (R58). -/
def decodeBytes : List Byte → Except DecodeReject (Instr × List Byte)
  | b0 :: b1 :: b2 :: b3 :: rest =>
    match decode (wordOfBytes b0 b1 b2 b3) with
    | .ok i => .ok (i, rest)
    | .error e => .error e
  | _ => .error .truncated

/-- The instruction word that a numeral of `nbits` bits gives: the bits above `nbits` are 0. -/
def tableWord (nbits w : Nat) : Word := BitVec.ofNat 32 (w % 2 ^ nbits)

/-- What the decoder reads from a row's word, numbered as spec/opcode_table.json numbers it, laid out
in memory order. -/
def decodeTableWord (nbits w : Nat) : Option Instr :=
  match decodeBytes (bytesOfWord (tableWord nbits w)) with
  | .ok (i, _) => some i
  | .error _ => none

/-! Encoder (R59, R80, R82). -/

/-- The 5 bits of a register field. -/
def regBits (r : RegIdx) : BitVec 5 := BitVec.ofFin r

/-- R format (R59), opcode 0x33. -/
def encodeR (funct7 : BitVec 7) (funct3 : BitVec 3) (rd rs1 rs2 : RegIdx) : Word :=
  funct7 ++ regBits rs2 ++ regBits rs1 ++ funct3 ++ regBits rd ++ 0x33#7

/-- I format (R59). -/
def encodeI (opcode : BitVec 7) (funct3 : BitVec 3) (rd rs1 : RegIdx) (imm : BitVec 12) : Word :=
  imm ++ regBits rs1 ++ funct3 ++ regBits rd ++ opcode

/-- I format, shift form (R59), opcode 0x13. -/
def encodeShift (funct3 : BitVec 3) (rd rs1 : RegIdx) (shamt : BitVec 5) : Word :=
  0b0000000#7 ++ shamt ++ regBits rs1 ++ funct3 ++ regBits rd ++ 0x13#7

/-- S format (R59), opcode 0x23. -/
def encodeS (funct3 : BitVec 3) (rs2 rs1 : RegIdx) (imm : BitVec 12) : Word :=
  imm.extractLsb' 5 7 ++ regBits rs2 ++ regBits rs1 ++ funct3 ++ imm.extractLsb' 0 5 ++ 0x23#7

/-- B format (R59), opcode 0x63; bit 0 of the offset has no place in the word (R82). -/
def encodeB (funct3 : BitVec 3) (rs1 rs2 : RegIdx) (offset : BitVec 13) : Word :=
  offset.extractLsb' 12 1 ++ offset.extractLsb' 5 6 ++ regBits rs2 ++ regBits rs1 ++ funct3 ++
    offset.extractLsb' 1 4 ++ offset.extractLsb' 11 1 ++ 0x63#7

/-- U format (R59), opcode 0x37. -/
def encodeU (rd : RegIdx) (imm20 : BitVec 20) : Word := imm20 ++ regBits rd ++ 0x37#7

/-- J format (R59), opcode 0x6F; bit 0 of the offset has no place in the word (R82). -/
def encodeJ (rd : RegIdx) (offset : BitVec 21) : Word :=
  offset.extractLsb' 20 1 ++ offset.extractLsb' 1 10 ++ offset.extractLsb' 11 1 ++
    offset.extractLsb' 12 8 ++ regBits rd ++ 0x6F#7

/-- The word of an instruction, for a well-formed one the word an assembler emits (R80, R82, R84); for
ECALL the canonical one (DEDUCED, log 13). -/
def encode : Instr → Word
  | .add rd rs1 rs2 => encodeR 0b0000000#7 0b000#3 rd rs1 rs2
  | .sub rd rs1 rs2 => encodeR 0b0100000#7 0b000#3 rd rs1 rs2
  | .sll rd rs1 rs2 => encodeR 0b0000000#7 0b001#3 rd rs1 rs2
  | .slt rd rs1 rs2 => encodeR 0b0000000#7 0b010#3 rd rs1 rs2
  | .xor rd rs1 rs2 => encodeR 0b0000000#7 0b100#3 rd rs1 rs2
  | .srl rd rs1 rs2 => encodeR 0b0000000#7 0b101#3 rd rs1 rs2
  | .or rd rs1 rs2 => encodeR 0b0000000#7 0b110#3 rd rs1 rs2
  | .and rd rs1 rs2 => encodeR 0b0000000#7 0b111#3 rd rs1 rs2
  | .addi rd rs1 imm => encodeI 0x13#7 0b000#3 rd rs1 imm
  | .slli rd rs1 shamt => encodeShift 0b001#3 rd rs1 shamt
  | .slti rd rs1 imm => encodeI 0x13#7 0b010#3 rd rs1 imm
  | .xori rd rs1 imm => encodeI 0x13#7 0b100#3 rd rs1 imm
  | .srli rd rs1 shamt => encodeShift 0b101#3 rd rs1 shamt
  | .ori rd rs1 imm => encodeI 0x13#7 0b110#3 rd rs1 imm
  | .andi rd rs1 imm => encodeI 0x13#7 0b111#3 rd rs1 imm
  | .lw rd rs1 imm => encodeI 0x03#7 0b010#3 rd rs1 imm
  | .sw rs2 rs1 imm => encodeS 0b010#3 rs2 rs1 imm
  | .beq rs1 rs2 offset => encodeB 0b000#3 rs1 rs2 offset
  | .bne rs1 rs2 offset => encodeB 0b001#3 rs1 rs2 offset
  | .lui rd imm20 => encodeU rd imm20
  | .jal rd offset => encodeJ rd offset
  | .ecall => 0x00000073#32

/-! The opcode map as match and mask (R70 to R75), for statements about the decoder. -/

/-- One row of the opcode map: a word is the row's instruction when `word & mask = match`. -/
structure OpcodeRow where
  mnemonic : String
  pattern : Word
  mask : Word
  deriving DecidableEq, Repr

/-- A word matches a row (R70). -/
abbrev OpcodeRow.matches (r : OpcodeRow) (w : Word) : Prop := w &&& r.mask = r.pattern

/-- The row of an instruction, from the tables of R70 to R75. -/
def rowOf : Instr → OpcodeRow
  | .add _ _ _ => ⟨"ADD", 0x00000033, 0xFE00707F⟩
  | .sub _ _ _ => ⟨"SUB", 0x40000033, 0xFE00707F⟩
  | .sll _ _ _ => ⟨"SLL", 0x00001033, 0xFE00707F⟩
  | .slt _ _ _ => ⟨"SLT", 0x00002033, 0xFE00707F⟩
  | .xor _ _ _ => ⟨"XOR", 0x00004033, 0xFE00707F⟩
  | .srl _ _ _ => ⟨"SRL", 0x00005033, 0xFE00707F⟩
  | .or _ _ _ => ⟨"OR", 0x00006033, 0xFE00707F⟩
  | .and _ _ _ => ⟨"AND", 0x00007033, 0xFE00707F⟩
  | .addi _ _ _ => ⟨"ADDI", 0x00000013, 0x0000707F⟩
  | .slli _ _ _ => ⟨"SLLI", 0x00001013, 0xFE00707F⟩
  | .slti _ _ _ => ⟨"SLTI", 0x00002013, 0x0000707F⟩
  | .xori _ _ _ => ⟨"XORI", 0x00004013, 0x0000707F⟩
  | .srli _ _ _ => ⟨"SRLI", 0x00005013, 0xFE00707F⟩
  | .ori _ _ _ => ⟨"ORI", 0x00006013, 0x0000707F⟩
  | .andi _ _ _ => ⟨"ANDI", 0x00007013, 0x0000707F⟩
  | .lw _ _ _ => ⟨"LW", 0x00002003, 0x0000707F⟩
  | .sw _ _ _ => ⟨"SW", 0x00002023, 0x0000707F⟩
  | .beq _ _ _ => ⟨"BEQ", 0x00000063, 0x0000707F⟩
  | .bne _ _ _ => ⟨"BNE", 0x00001063, 0x0000707F⟩
  | .lui _ _ => ⟨"LUI", 0x00000037, 0x0000007F⟩
  | .jal _ _ => ⟨"JAL", 0x0000006F, 0x0000007F⟩
  | .ecall => ⟨"ECALL", 0x00000073, 0x0000007F⟩

/-- The 22 rows of the opcode map (R70 to R75); the operands are of no account. -/
def opcodeRows : List OpcodeRow :=
  [ rowOf (.add 0 0 0),
    rowOf (.sub 0 0 0),
    rowOf (.sll 0 0 0),
    rowOf (.slt 0 0 0),
    rowOf (.xor 0 0 0),
    rowOf (.srl 0 0 0),
    rowOf (.or 0 0 0),
    rowOf (.and 0 0 0),
    rowOf (.addi 0 0 0),
    rowOf (.slli 0 0 0),
    rowOf (.slti 0 0 0),
    rowOf (.xori 0 0 0),
    rowOf (.srli 0 0 0),
    rowOf (.ori 0 0 0),
    rowOf (.andi 0 0 0),
    rowOf (.lw 0 0 0),
    rowOf (.sw 0 0 0),
    rowOf (.beq 0 0 0),
    rowOf (.bne 0 0 0),
    rowOf (.lui 0 0),
    rowOf (.jal 0 0),
    rowOf .ecall ]

end Sys2Proof
end

