-- ==== Sys2Proof/Machine/Operands.lean ====
section
/-! DEFINITION. The operand forms of the 22 instructions: immediates, shift amounts, effective
addresses and control-transfer targets. -/

namespace Sys2Proof.Machine

/-- The shift amount of SLL and SRL: the low 5 bits of the second operand (spec/41_alu_register.md
R101, R104, D8). -/
def registerShift (v : Word) : Nat := (v.extractLsb' 0 5).toNat

/-- The shift amount of SLLI and SRLI (spec/42_alu_immediate.md R110, R113). -/
def constantShift (shamt : BitVec 5) : Nat := shamt.toNat

/-- `ea = u32(x[rs1] + imm)`, the address of LW and SW: the sum wraps (spec/20_memory.md R56). -/
def effectiveAddress (s : State) (rs1 : RegIdx) (imm : BitVec 12) : Word :=
  s.readReg rs1 + immediate12 imm

/-- `u32(pc + immB)` (spec/44_branch.md R122). -/
def branchTarget (s : State) (offset : BitVec 13) : Word := s.pc + immediate13 offset

/-- `u32(pc + immJ)` (spec/46_jump_and_link.md R128). -/
def jumpTarget (s : State) (offset : BitVec 21) : Word := s.pc + immediate21 offset

end Sys2Proof.Machine
end

