-- ==== Sys2Proof/Machine/AluImmediate.lean ====
section
/-! DEFINITION. ADDI SLLI SLTI XORI SRLI ORI ANDI (spec/42_alu_immediate.md). The second operand is the
sign-extended immediate; each reads `x[rs1]` before it writes `x[rd]`, advances the pc by 4 and
raises nothing (R108). There is no subtract-immediate (R116). -/

namespace Sys2Proof.Machine

/-- ADDI (R109). -/
def execAddi (rd rs1 : RegIdx) (imm : BitVec 12) (s : State) : Host.Outcome State Fault Refusal :=
  .next (s.finishWith rd (s.readReg rs1 + immediate12 imm))

/-- SLLI (R110). -/
def execSlli (rd rs1 : RegIdx) (shamt : BitVec 5) (s : State) : Host.Outcome State Fault Refusal :=
  .next (s.finishWith rd (s.readReg rs1 <<< constantShift shamt))

/-- SLTI (R111). -/
def execSlti (rd rs1 : RegIdx) (imm : BitVec 12) (s : State) : Host.Outcome State Fault Refusal :=
  .next (s.finishWith rd (truthWord (lessThan s.cfg (s.readReg rs1) (immediate12 imm))))

/-- XORI (R112). -/
def execXori (rd rs1 : RegIdx) (imm : BitVec 12) (s : State) : Host.Outcome State Fault Refusal :=
  .next (s.finishWith rd (s.readReg rs1 ^^^ immediate12 imm))

/-- SRLI (R113). -/
def execSrli (rd rs1 : RegIdx) (shamt : BitVec 5) (s : State) : Host.Outcome State Fault Refusal :=
  .next (s.finishWith rd (s.readReg rs1 >>> constantShift shamt))

/-- ORI (R114). -/
def execOri (rd rs1 : RegIdx) (imm : BitVec 12) (s : State) : Host.Outcome State Fault Refusal :=
  .next (s.finishWith rd (s.readReg rs1 ||| immediate12 imm))

/-- ANDI (R115). -/
def execAndi (rd rs1 : RegIdx) (imm : BitVec 12) (s : State) : Host.Outcome State Fault Refusal :=
  .next (s.finishWith rd (s.readReg rs1 &&& immediate12 imm))

end Sys2Proof.Machine
end

