-- ==== Sys2Proof/Machine/AluRegister.lean ====
section
/-! DEFINITION. ADD SUB SLL SLT XOR SRL OR AND (spec/41_alu_register.md). Each reads both sources before
it writes `x[rd]`, advances the pc by 4 and raises nothing (R98). -/

namespace Sys2Proof.Machine

/-- ADD (R99). -/
def execAdd (rd rs1 rs2 : RegIdx) (s : State) : Host.Outcome State Fault Refusal :=
  .next (s.finishWith rd (s.readReg rs1 + s.readReg rs2))

/-- SUB (R100). -/
def execSub (rd rs1 rs2 : RegIdx) (s : State) : Host.Outcome State Fault Refusal :=
  .next (s.finishWith rd (s.readReg rs1 - s.readReg rs2))

/-- SLL (R101). -/
def execSll (rd rs1 rs2 : RegIdx) (s : State) : Host.Outcome State Fault Refusal :=
  .next (s.finishWith rd (s.readReg rs1 <<< registerShift (s.readReg rs2)))

/-- SLT (R102). -/
def execSlt (rd rs1 rs2 : RegIdx) (s : State) : Host.Outcome State Fault Refusal :=
  .next (s.finishWith rd (truthWord (lessThan s.cfg (s.readReg rs1) (s.readReg rs2))))

/-- XOR (R103). -/
def execXor (rd rs1 rs2 : RegIdx) (s : State) : Host.Outcome State Fault Refusal :=
  .next (s.finishWith rd (s.readReg rs1 ^^^ s.readReg rs2))

/-- SRL (R104). -/
def execSrl (rd rs1 rs2 : RegIdx) (s : State) : Host.Outcome State Fault Refusal :=
  .next (s.finishWith rd (s.readReg rs1 >>> registerShift (s.readReg rs2)))

/-- OR (R105). -/
def execOr (rd rs1 rs2 : RegIdx) (s : State) : Host.Outcome State Fault Refusal :=
  .next (s.finishWith rd (s.readReg rs1 ||| s.readReg rs2))

/-- AND (R106). -/
def execAnd (rd rs1 rs2 : RegIdx) (s : State) : Host.Outcome State Fault Refusal :=
  .next (s.finishWith rd (s.readReg rs1 &&& s.readReg rs2))

end Sys2Proof.Machine
end

