-- ==== Sys2Proof/Machine/Branch.lean ====
section
/-! DEFINITION. BEQ and BNE (spec/44_branch.md): no register and no memory byte is written, the target
is not checked, there is no delay slot (R122). -/

namespace Sys2Proof.Machine

/-- BEQ (R123). -/
def execBeq (rs1 rs2 : RegIdx) (offset : BitVec 13) (s : State) :
    Host.Outcome State Fault Refusal :=
  .next (s.complete
    (if sameValue (s.readReg rs1) (s.readReg rs2) then branchTarget s offset else s.pcPlus4))

/-- BNE (R124). -/
def execBne (rs1 rs2 : RegIdx) (offset : BitVec 13) (s : State) :
    Host.Outcome State Fault Refusal :=
  .next (s.complete
    (if sameValue (s.readReg rs1) (s.readReg rs2) then s.pcPlus4 else branchTarget s offset))

end Sys2Proof.Machine
end

