-- ==== Sys2Proof/Machine/JumpAndLink.lean ====
section
/-! DEFINITION. JAL (spec/46_jump_and_link.md). -/

namespace Sys2Proof.Machine

/-- JAL (R128): the link value and the target are both formed from the pc the step began with; the
target is not checked (R130). -/
def execJal (rd : RegIdx) (offset : BitVec 21) (s : State) : Host.Outcome State Fault Refusal :=
  .next ((s.writeReg rd s.pcPlus4).complete (jumpTarget s offset))

end Sys2Proof.Machine
end

