-- ==== Sys2Proof/Machine/LoadStore.lean ====
section
/-! DEFINITION. LW and SW (spec/43_load_store.md): 4 bytes, little-endian, any alignment, performed whole
or not at all (R117). An access that is out of bounds raises OutOfBounds(ea, 4, access) and has no
other effect. -/

namespace Sys2Proof.Machine

/-- LW (R118): `x[rd]` is written only if the read did not fault. -/
def execLw (rd rs1 : RegIdx) (imm : BitVec 12) (s : State) : Host.Outcome State Fault Refusal :=
  match s.memRead (effectiveAddress s rs1 imm) .word .load with
  | .ok v => .next (s.finishWith rd v)
  | .error f => .next (s.raiseFault f)

/-- SW (R119): no register changes, and no byte is written if the range check fails. -/
def execSw (rs2 rs1 : RegIdx) (imm : BitVec 12) (s : State) : Host.Outcome State Fault Refusal :=
  match s.memWrite (effectiveAddress s rs1 imm) .word (s.readReg rs2) .store with
  | .ok t => .next (t.complete s.pcPlus4)
  | .error f => .next (s.raiseFault f)

end Sys2Proof.Machine
end

