-- ==== Sys2Proof/Machine/System.lean ====
section
/-! DEFINITION. ECALL (spec/47_system.md): the halt instruction. It is not a trap (R131,
spec/60_exceptions.md R149). -/

namespace Sys2Proof.Machine

/-- ECALL (R131): sets the halt flag and advances the pc by 4; the status becomes Halted at the end of
the step. No general register and no memory byte is read or written. -/
def execEcall (s : State) : Host.Outcome State Fault Refusal :=
  .next (s.setHalted.complete s.pcPlus4)

end Sys2Proof.Machine
end

