-- ==== Sys2Proof/Machine/UpperImmediate.lean ====
section
/-! DEFINITION. LUI (spec/45_upper_immediate.md). -/

namespace Sys2Proof.Machine

/-- LUI (R126): no register is read; the low 12 bits of `x[rd]` become 0. -/
def execLui (rd : RegIdx) (imm20 : BitVec 20) (s : State) : Host.Outcome State Fault Refusal :=
  .next (s.finishWith rd (immediateU imm20))

end Sys2Proof.Machine
end

