-- ==== Sys2Proof/Machine/Fetch.lean ====
section
/-! DEFINITION. Fetch, decode and dispatch as the step uses them (spec/40_instruction_cycle.md R86 to
R88, R92), and the placing of a word where the next fetch reads it. -/

namespace Sys2Proof.Machine

/-- `word <- MemRead(pc, 4)` (R86): the current contents of memory, at any alignment. -/
def State.fetchWord (s : State) : Except Fault Word := s.memRead s.pc .word .fetch

/-- Fetch, then the lookup of the dispatch: the instruction at the pc or the fault, in the order of
spec/60_exceptions.md R142. A word with no entry raises DecodeError with its opcode (R92, R136). -/
def State.fetchInstr (s : State) : Except Fault Instr :=
  match s.fetchWord with
  | .error f => .error f
  | .ok w =>
    match decode w with
    | .ok i => .ok i
    | .error _ => .error (.decodeError (opcodeOf w))

/-- The four bytes of a word stored at the pc, lowest address first, if they are inside memory: what
the host's LoadBlock of the word at the pc leaves (spec/20_memory.md R38, R40). -/
def State.placeAtPc (s : State) (w : Word) : State :=
  if s.inBounds s.pc.toNat 4 then { s with mem := s.mem.writeBytes s.pc.toNat (bytesOfWord w) }
  else s

end Sys2Proof.Machine
end

