-- ==== Sys2Proof/Machine/Step.lean ====
section
/-! DEFINITION. One step of the core (spec/40_instruction_cycle.md R85), and the host's placing of an
instruction for it. -/

namespace Sys2Proof.Machine

/-- One step. While Running it fetches, decodes and performs one instruction, or takes the fault that
the fetch or the dispatch raised (R85, R91). A core that has stopped has no step (R93): a Halted one
stays as it is, a Faulted one answers its fault (D22; DESIGN CHOICE, log 6). -/
def step (s : State) : Host.Outcome State Fault Refusal :=
  match s.status with
  | .running =>
    match s.fetchInstr with
    | .ok i => exec i s
    | .error f => .next (s.raiseFault f)
  | .halted => .next s
  | .faulted f => .fault f

/-- `s` with the instruction word of the given bits where the next fetch reads it: at the pc. It
stands for the host's load of a program (spec/70_reset_and_hazards.md R160, R168; log 8). -/
def State.withFetchWord (s : State) (nbits w : Nat) : State := s.placeAtPc (tableWord nbits w)

end Sys2Proof.Machine
end

