-- ==== Sys2Proof/Machine/Launch.lean ====
section
/-! DEFINITION. The host interface before and after a run (spec/70_reset_and_hazards.md R160) and the
launch state (R168). Host errors are no faults of the core (spec/60_exceptions.md R134). -/

namespace Sys2Proof.Machine

/-- Why a host operation fails (R134). The core is left as it was. The spec names the kinds MemoryOverflow
and InvalidFormat and gives no error a record: which kinds stand beside them and what each records are
the model's (DESIGN CHOICE, log 17). -/
inductive HostError where
  /-- MemoryOverflow: a block or segment would not fit in memory (spec/20_memory.md R38, R166). It
  records the block's base address and its length (DESIGN CHOICE, log 17). -/
  | memoryOverflow (base length : Nat)
  /-- InvalidFormat: the file does not start with the ELF magic (R163). -/
  | invalidFormat
  /-- A file too short for its header, table or segment ranges: a host error of unspecified kind
  (R167, N17, U14; DESIGN CHOICE, log 9). -/
  | truncatedFile
  /-- ReadMem outside memory, an error for the host (R160). It records what was asked for (DESIGN CHOICE,
  log 17). -/
  | readOutOfRange (addr n : Nat)
  /-- The operation is not open to the host at this point: refused
  (spec/93_implementation_defined.md U13; R160, R178; DESIGN CHOICE on the name, log 17). -/
  | notAllowed
  deriving DecidableEq, Repr

/-! The effects of the operations. When the host may ask for each is `Session.request`'s to say
(Sys2Proof/Machine/Session.lean). -/

/-- `Reset`: the reset state of the same instance; its parameters are not changed (R157 to R159). -/
def State.hostReset (s : State) : State := State.resetWith s.cfg

/-- `LoadBlock(base, bytes)` (spec/20_memory.md R38): nothing is written if it would not fit. -/
def State.loadBlock (s : State) (base : Word) (bytes : List Byte) : Except HostError State :=
  if s.inBounds base.toNat bytes.length then
    .ok { s with mem := s.mem.writeBytes base.toNat bytes }
  else .error (.memoryOverflow base.toNat bytes.length)

/-- `SetPc(v)` (R160). -/
def State.setPc (s : State) (v : Word) : State := { s with pc := v }

/-- `ReadMem(addr, n)`: `n` bytes, the lowest address first, any `n` (R160, spec/10_state.md R33). The
host's `ReadReg`, `ReadPc` and `ReadStatus` are `State.readReg` and the fields `pc`, `status`,
`halted`. -/
def State.hostReadMem (s : State) (addr n : Nat) : Except HostError (List Byte) :=
  if s.inBounds addr n then .ok (s.mem.readBytes addr n) else .error (.readOutOfRange addr n)

/-- IMAGE: the segments, each applied with LoadBlock in order (spec/00_scope.md R10, R168). -/
def State.loadImage (s : State) : List (Word × List Byte) → Except HostError State
  | [] => .ok s
  | segment :: image =>
    match s.loadBlock segment.1 segment.2 with
    | .ok t => t.loadImage image
    | .error e => .error e

/-- The launch state of an instance: reset, IMAGE loaded, pc = ENTRY (R168). -/
def launch (cfg : Config) (image : List (Word × List Byte)) (entry : Word) :
    Except HostError State :=
  match (State.resetWith cfg).loadImage image with
  | .ok s => .ok (s.setPc entry)
  | .error e => .error e

end Sys2Proof.Machine
end

