-- ==== Sys2Proof/Machine/Loader.lean ====
section
/-! DEFINITION. The object loader, the host's side of a launch (spec/70_reset_and_hazards.md R162 to
R167; spec/00_scope.md R7): an ELF32 file to memory contents and an entry address. -/

namespace Sys2Proof.Machine

/-- The ELF magic sequence (R163). -/
def elfMagic : List Byte := [0x7F, 0x45, 0x4C, 0x46]

/-- Whether the file has the `n` bytes at an offset. A range of no bytes must lie within the file too: an
offset past its end makes the file too short (DESIGN CHOICE, log 9). -/
def fileHas (file : List Byte) (offset n : Nat) : Bool := offset + n ≤ file.length

/-- A little-endian field of `n` bytes at a file offset (R162, R164). -/
def fileField (file : List Byte) (offset n : Nat) : Except HostError Nat :=
  if fileHas file offset n then .ok (littleEndian ((file.drop offset).take n))
  else .error .truncatedFile

/-- The header fields the loader reads (R164). -/
structure ElfHeader where
  entry : Nat
  tableOffset : Nat
  entrySize : Nat
  count : Nat
  deriving DecidableEq, Repr

/-- The fields of one program-header entry the loader reads (R165). -/
structure ProgramHeader where
  segmentType : Nat
  fileOffset : Nat
  virtualAddress : Nat
  fileSize : Nat
  /-- Read and without effect (R167, D24). -/
  memorySize : Nat
  deriving DecidableEq, Repr

/-- The length of the ELF32 header in bytes (R164). -/
def elfHeaderLength : Nat := 52

/-- Header fields at the offsets of R164. A file shorter than the whole header is refused, whichever of
its bytes are read (R167, spec/93_implementation_defined.md U14). -/
def readElfHeader (file : List Byte) : Except HostError ElfHeader :=
  if fileHas file 0 elfHeaderLength then do
    let entry ← fileField file 0x18 4
    let tableOffset ← fileField file 0x1C 4
    let entrySize ← fileField file 0x2A 2
    let count ← fileField file 0x2C 2
    return { entry, tableOffset, entrySize, count }
  else .error .truncatedFile

/-- Whether the file holds the whole program-header table: `count` entries of `entrySize` bytes from
`tableOffset` on (R165, R167, U14; DESIGN CHOICE that the entry size is the header's, log 9). -/
def ElfHeader.tableFits (h : ElfHeader) (file : List Byte) : Bool :=
  fileHas file h.tableOffset (h.count * h.entrySize)

/-- One program-header entry, at the offsets of R165. Its 24 bytes must be in the file even where the
header gives its entries a smaller size (DESIGN CHOICE, log 9). -/
def readProgramHeader (file : List Byte) (offset : Nat) : Except HostError ProgramHeader := do
  let segmentType ← fileField file offset 4
  let fileOffset ← fileField file (offset + 4) 4
  let virtualAddress ← fileField file (offset + 8) 4
  let fileSize ← fileField file (offset + 16) 4
  let memorySize ← fileField file (offset + 20) 4
  return { segmentType, fileOffset, virtualAddress, fileSize, memorySize }

/-- The type that marks a segment as loadable (R165). -/
def loadableType : Nat := 1

/-- One entry of the table: a loadable segment is copied by one LoadBlock, any other is discarded
(R165). A segment that does not fit is never copied (R166); the check comes before that of the file's
length, and a segment of no bytes whose file offset is past the end of the file is one the file is too
short for (DESIGN CHOICE, log 9). -/
def loadSegment (file : List Byte) (h : ProgramHeader) (s : State) : Except HostError State :=
  if h.segmentType = loadableType then
    if s.inBounds h.virtualAddress h.fileSize then
      if fileHas file h.fileOffset h.fileSize then
        s.loadBlock (BitVec.ofNat 32 h.virtualAddress) ((file.drop h.fileOffset).take h.fileSize)
      else .error .truncatedFile
    else .error (.memoryOverflow h.virtualAddress h.fileSize)
  else .ok s

/-- The entries in table order, from the one at `offset` on (R165, D24). -/
def loadSegments (file : List Byte) (entrySize : Nat) :
    (offset count : Nat) → State → Except HostError State
  | _, 0, s => .ok s
  | offset, count + 1, s => do
    let h ← readProgramHeader file offset
    let t ← loadSegment file h s
    loadSegments file entrySize (offset + entrySize) count t

/-- The loader (R162): the entry address and the memory it populated, or a host error. It does not
start execution. The magic is checked first, so that a file of fewer than four bytes is of invalid
format, then the lengths of the header and of the table (DESIGN CHOICE on the order, log 9). -/
def loadElf (file : List Byte) (s : State) : Except HostError (Word × State) :=
  if file.take 4 = elfMagic then
    match readElfHeader file with
    | .ok h =>
      if h.tableFits file then do
        let t ← loadSegments file h.entrySize h.tableOffset h.count s
        return (BitVec.ofNat 32 h.entry, t)
      else .error .truncatedFile
    | .error e => .error e
  else .error .invalidFormat

/-- The launch state made from an ELF32 file (R161, R168): reset, load, pc at the entry address. -/
def launchElf (cfg : Config) (file : List Byte) : Except HostError State :=
  match loadElf file (State.resetWith cfg) with
  | .ok (entry, s) => .ok (s.setPc entry)
  | .error e => .error e

end Sys2Proof.Machine
end

