-- ==== Sys2Proof/Machine/Run.lean ====
section
/-! DEFINITION. A run (spec/40_instruction_cycle.md R94 to R96): steps while the status is Running. -/

namespace Sys2Proof.Machine

/-- How a run stands after a number of steps (R95). -/
inductive RunEnd where
  /-- A step executed ECALL: the successful end, no error to the host (R155). -/
  | halted (s : State)
  /-- A step raised a fault: the frozen state and the typed error the host receives (R155). -/
  | faulted (s : State) (fault : Fault)
  /-- Not yet ended: running out of steps is no end (R96). -/
  | notEnded (s : State)
  deriving DecidableEq, Repr

/-- The state after a step; a step that answers no state leaves it (R93). -/
def State.advance (s : State) : State :=
  match step s with
  | .next t => t
  | .fault _ => s
  | .refused _ => s

/-- How a state stands: ended with a halt, with a fault, or not ended (R95). -/
def State.ending (s : State) : RunEnd :=
  match s.status with
  | .running => .notEnded s
  | .halted => .halted s
  | .faulted f => .faulted s f

/-- `Run` (R94, R169) under a bound on the number of steps, which no instruction can observe
(R176; DESIGN CHOICE, log 16). -/
def run : Nat → State → RunEnd
  | 0, s => s.ending
  | k + 1, s => if s.status = .running then run k s.advance else s.ending

end Sys2Proof.Machine
end

