-- ==== Sys2Proof/Machine/Session.lean ====
section
/-! DEFINITION. The host interface with its column "when" (spec/70_reset_and_hazards.md R160): what the
host may ask of an instance before, during and after a run. How far the host has come is no state of
the core (spec/10_state.md R31), so it stands beside the core's state here. -/

namespace Sys2Proof.Machine

/-- How far the host has come with an instance (R159 to R161). -/
inductive Phase where
  /-- After reset, before the run. -/
  | beforeRun
  /-- After a LoadBlock that failed: the host must reset before any run (R166,
  spec/93_implementation_defined.md U15; DESIGN CHOICE for a single LoadBlock, log 15). -/
  | loadFailed
  /-- During the run: the host does nothing (R160, R178). -/
  | inRun
  /-- After the run (R170). -/
  | afterRun
  deriving DecidableEq, Repr

/-- An instance and how far the host has come with it. -/
structure Session where
  phase : Phase
  core : State
  deriving DecidableEq, Repr

/-- What the host can ask for: exactly the operations of R160. -/
inductive Command where
  | reset
  | loadBlock (base : Word) (bytes : List Byte)
  | setPc (v : Word)
  | run
  | readReg (i : RegIdx)
  | readPc
  | readMem (addr n : Nat)
  | readStatus
  deriving DecidableEq, Repr

/-- What an operation that does not fail gives the host. What Run returns is `Session.returned`. -/
inductive Reply where
  | done
  | word (v : Word)
  | bytes (bytes : List Byte)
  | status (status : Status) (halted : Bool)
  deriving DecidableEq, Repr

/-- The column "when" of R160. Run is open once after each reset, also where nothing was loaded and no pc
was set (DESIGN CHOICE, log 15). -/
def Command.phases : Command → List Phase
  | .reset => [.beforeRun, .loadFailed, .afterRun]
  | .loadBlock _ _ => [.beforeRun]
  | .setPc _ => [.beforeRun]
  | .run => [.beforeRun]
  | .readReg _ => [.beforeRun, .loadFailed, .afterRun]
  | .readPc => [.beforeRun, .loadFailed, .afterRun]
  | .readMem _ _ => [.beforeRun, .loadFailed, .afterRun]
  | .readStatus => [.beforeRun, .loadFailed, .afterRun]

/-- A new instance: its construction is its reset (R156). -/
def Session.new (cfg : Config) : Session := { phase := .beforeRun, core := State.resetWith cfg }

/-- The column "effect" of R160. -/
def Session.perform (h : Session) : Command → Except HostError Reply × Session
  | .reset => (.ok .done, { phase := .beforeRun, core := h.core.hostReset })
  | .loadBlock base bytes =>
    match h.core.loadBlock base bytes with
    | .ok t => (.ok .done, { h with core := t })
    | .error e => (.error e, { h with phase := .loadFailed })
  | .setPc v => (.ok .done, { h with core := h.core.setPc v })
  | .run => (.ok .done, { h with phase := .inRun })
  | .readReg i => (.ok (.word (h.core.readReg i)), h)
  | .readPc => (.ok (.word h.core.pc), h)
  | .readMem addr n =>
    match h.core.hostReadMem addr n with
    | .ok bytes => (.ok (.bytes bytes), h)
    | .error e => (.error e, h)
  | .readStatus => (.ok (.status h.core.status h.core.halted), h)

/-- The host asks for an operation (R160): it is performed where it is open to the host and refused,
with nothing changed, where it is not (U13). -/
def Session.request (h : Session) (c : Command) : Except HostError Reply × Session :=
  if h.phase ∈ c.phases then h.perform c else (.error .notAllowed, h)

/-- The session after the host has asked for operations one after another. -/
def Session.issue (h : Session) : List Command → Session
  | [] => h
  | c :: commands => (h.request c).2.issue commands

/-- One step of the core during the run, which ends when the status is no longer Running
(spec/40_instruction_cycle.md R94). Outside a run the core takes no step. -/
def Session.tick (h : Session) : Session :=
  match h.phase with
  | .inRun =>
    { phase := if h.core.advance.status = .running then .inRun else .afterRun
      core := h.core.advance }
  | .beforeRun => h
  | .loadFailed => h
  | .afterRun => h

/-- A number of steps of the core. -/
def Session.ticks : Nat → Session → Session
  | 0, h => h
  | k + 1, h => Session.ticks k h.tick

/-- What Run has returned to the host: nothing until the run has ended (R169, spec/60_exceptions.md
R155). -/
def Session.returned (h : Session) : Option RunEnd :=
  match h.phase with
  | .afterRun => some h.core.ending
  | .beforeRun => none
  | .loadFailed => none
  | .inRun => none

end Sys2Proof.Machine
end

