-- ==== Sys2Proof/Safety.lean ====
section
/-! DEFINITION. The terms that statements about the core are written in: the spec's notation
(spec/00_scope.md R12) in plain integers, the invariant of the state, and what an instruction leaves
unchanged. Nothing of the machine is defined through this file. -/

namespace Sys2Proof

/-! Notation of R12. -/

/-- `u32(n)`: `n mod 2^32` for any integer `n`, as a 32-bit value (R12). -/
def u32 (n : ℤ) : Word := BitVec.ofNat 32 (n % 2 ^ 32).toNat

/-- `signed(v)`: a 32-bit value read as two's complement (R12). -/
def signed (v : Word) : ℤ := if v.toNat < 2 ^ 31 then v.toNat else (v.toNat : ℤ) - 2 ^ 32

/-- `sext_N(f)` of an `N`-bit field given as a natural number (R12, spec/30_encoding.md R61). -/
def sext (n f : ℕ) : ℤ := if f < 2 ^ (n - 1) then f else (f : ℤ) - 2 ^ n

/-- `v[hi:lo]`: the unsigned value of bits `hi` down to `lo` (R12). -/
def slice (v : Word) (hi lo : ℕ) : ℕ := v.toNat / 2 ^ lo % 2 ^ (hi + 1 - lo)

/-- A register index as the 5 bits of its field (spec/30_encoding.md R57). -/
def reg5 (r : RegIdx) : BitVec 5 := BitVec.ofNat 5 r.val

/-- The six cases in which a word is none of the 22 instructions (spec/30_encoding.md R76). -/
def IllegalWord (w : Word) : Prop :=
  slice w 6 0 ∉ [0x33, 0x13, 0x03, 0x23, 0x63, 0x37, 0x6F, 0x73] ∨
  (slice w 6 0 = 0x33 ∧ ¬(slice w 31 25 = 0 ∧ slice w 14 12 ∈ [0, 1, 2, 4, 5, 6, 7]) ∧
    ¬(slice w 31 25 = 0b0100000 ∧ slice w 14 12 = 0)) ∨
  (slice w 6 0 = 0x13 ∧ (slice w 14 12 = 3 ∨ (slice w 14 12 ∈ [1, 5] ∧ slice w 31 25 ≠ 0))) ∨
  (slice w 6 0 = 0x03 ∧ slice w 14 12 ≠ 2) ∨
  (slice w 6 0 = 0x23 ∧ slice w 14 12 ≠ 2) ∨
  (slice w 6 0 = 0x63 ∧ slice w 14 12 ∉ [0, 1])

/-! Which registers an instruction names (spec/10_state.md R18). -/

/-- The registers the instruction reads (R18). -/
def Instr.sources : Instr → List RegIdx
  | .add _ rs1 rs2 => [rs1, rs2]
  | .sub _ rs1 rs2 => [rs1, rs2]
  | .sll _ rs1 rs2 => [rs1, rs2]
  | .slt _ rs1 rs2 => [rs1, rs2]
  | .xor _ rs1 rs2 => [rs1, rs2]
  | .srl _ rs1 rs2 => [rs1, rs2]
  | .or _ rs1 rs2 => [rs1, rs2]
  | .and _ rs1 rs2 => [rs1, rs2]
  | .addi _ rs1 _ => [rs1]
  | .slli _ rs1 _ => [rs1]
  | .slti _ rs1 _ => [rs1]
  | .xori _ rs1 _ => [rs1]
  | .srli _ rs1 _ => [rs1]
  | .ori _ rs1 _ => [rs1]
  | .andi _ rs1 _ => [rs1]
  | .lw _ rs1 _ => [rs1]
  | .sw rs2 rs1 _ => [rs1, rs2]
  | .beq rs1 rs2 _ => [rs1, rs2]
  | .bne rs1 rs2 _ => [rs1, rs2]
  | .lui _ _ => []
  | .jal _ _ => []
  | .ecall => []

/-- The register the instruction writes, if it writes one (R18). -/
def Instr.destination : Instr → Option RegIdx
  | .add rd _ _ => some rd
  | .sub rd _ _ => some rd
  | .sll rd _ _ => some rd
  | .slt rd _ _ => some rd
  | .xor rd _ _ => some rd
  | .srl rd _ _ => some rd
  | .or rd _ _ => some rd
  | .and rd _ _ => some rd
  | .addi rd _ _ => some rd
  | .slli rd _ _ => some rd
  | .slti rd _ _ => some rd
  | .xori rd _ _ => some rd
  | .srli rd _ _ => some rd
  | .ori rd _ _ => some rd
  | .andi rd _ _ => some rd
  | .lw rd _ _ => some rd
  | .sw _ _ _ => none
  | .beq _ _ _ => none
  | .bne _ _ _ => none
  | .lui rd _ => some rd
  | .jal rd _ => some rd
  | .ecall => none

namespace Machine

/-! States. -/

/-- A core that may take a step: Running, with the halt flag clear as R24 says of it
(spec/40_instruction_cycle.md R85). -/
abbrev State.Active (s : State) : Prop := s.status = .running ∧ s.halted = false

/-- What holds of the core at reset and after every step: memory is in its canonical form and has no
byte at or above MEM_CAPACITY (spec/10_state.md R25), `status = Halted` exactly when the halt flag is
set (R24), and the capacity is one the spec admits (spec/00_scope.md R10). -/
structure State.Inv (s : State) : Prop where
  memory_canonical : s.mem.wf
  memory_in_range : ∀ c ∈ s.mem, c.1 < s.cfg.memCapacity
  halted_iff : s.halted = true ↔ s.status = .halted
  capacity : s.cfg.wf

/-- What holds of a new instance and after every operation of the host and every step: the core has not
stopped before and during the run and has stopped after it (spec/70_reset_and_hazards.md R160,
R169). -/
structure Session.Inv (h : Session) : Prop where
  core : h.core.Inv
  stopped_iff : h.core.status ≠ .running ↔ h.phase = .afterRun

/-! What an instruction changes. -/

/-- The machine state but for the general registers and the pc is as it was: every byte of memory, the
halt flag, the status, and the parameters. -/
structure SameButRegsAndPc (s t : State) : Prop where
  memory : ∀ a, t.mem.read a = s.mem.read a
  halted : t.halted = s.halted
  status : t.status = s.status
  parameters : t.cfg = s.cfg

/-- `x[rd] <- v` and `pc <- nextPc`, and nothing else: every other register, every byte of memory, the
halt flag and the status are as they were. With X0_HARDWIRED, a write of register 0 is discarded
(spec/10_state.md R17). -/
structure WritesRegister (s t : State) (rd : RegIdx) (v nextPc : Word) : Prop where
  registers : ∀ i, t.readReg i =
    if i = rd ∧ ¬(s.cfg.x0Hardwired = true ∧ rd = 0) then v else s.readReg i
  pc : t.pc = nextPc
  rest : SameButRegsAndPc s t

/-- `pc <- nextPc` and nothing else: no register and no memory byte is written. -/
structure WritesPcOnly (s t : State) (nextPc : Word) : Prop where
  registers : ∀ i, t.readReg i = s.readReg i
  pc : t.pc = nextPc
  rest : SameButRegsAndPc s t

/-- The 32-bit value of the four bytes at an address, byte 0 the least significant
(spec/20_memory.md R35). -/
def wordAt (s : State) (a : ℕ) : Word :=
  u32 ((s.mem.read a).toNat + 2 ^ 8 * (s.mem.read (a + 1)).toNat +
    2 ^ 16 * (s.mem.read (a + 2)).toNat + 2 ^ 24 * (s.mem.read (a + 3)).toNat)

/-- The byte that a list of segments leaves at an address of zeroed memory: that of the last segment
covering it, or 0 (spec/70_reset_and_hazards.md R168). -/
def imageByte (image : List (Word × List Byte)) (a : ℕ) : Byte :=
  match (image.filter (fun g => g.1.toNat ≤ a ∧ a < g.1.toNat + g.2.length)).getLast? with
  | some g => g.2.getD (a - g.1.toNat) 0
  | none => 0

end Machine

end Sys2Proof
end

