-- ==== Sys2Proof/Certificates/Slice0/Obligations.lean ====
section
/-! DEFINITION. The statements for the provers. Each formalises the rule of spec/ its docstring names, or
says what it is derived from; hypotheses are on the state and the operands alone. -/

open Sys2Proof Sys2Proof.Machine

/-- Reset leaves registers, pc and memory zero, the halt flag clear and the status Running (states
R157). -/
def Obligations.ResetClearsEverything : Prop :=
  (∀ c : Config, (∀ i, (State.resetWith c).readReg i = 0) ∧ (State.resetWith c).pc = 0 ∧
      (∀ a, (State.resetWith c).mem.read a = 0) ∧ (State.resetWith c).halted = false ∧
      (State.resetWith c).status = .running ∧ (State.resetWith c).cfg = c) ∧
    (∃ c : Config, State.reset = State.resetWith c) ∧
    ∀ s : State, s.hostReset = State.resetWith s.cfg

/-- The invariant holds at reset (derived from 10_state.md section 6, 70_reset_and_hazards.md section
1). -/
def Obligations.ResetSatisfiesInvariant : Prop :=
  State.reset.Inv ∧ ∀ c : Config, c.wf → (State.resetWith c).Inv

/-- Every step keeps the invariant (derived from 10_state.md sections 3, 4 and 6,
40_instruction_cycle.md section 1). -/
def Obligations.StepKeepsInvariant : Prop :=
  ∀ s t : State, s.Inv → step s = .next t → t.Inv

/-- Decoding the encoded word of every well-formed instruction gives it back (derived from
30_encoding.md sections 2, 3 and 5). -/
def Obligations.DecodeOfEncodeIsTheInstruction : Prop :=
  ∀ i : Instr, i.wellFormed = true → decode (encode i) = .ok i

/-- Every word that decodes is the encoding of what it decodes to, but for the ignored bits of ECALL
(derived from 30_encoding.md sections 3, 4 and 5). -/
def Obligations.EncodeOfDecodeIsTheWord : Prop :=
  ∀ (w : Word) (i : Instr), decode w = .ok i →
    i.wellFormed = true ∧ (i ≠ .ecall → encode i = w)

/-- A word matches exactly the row of the instruction it decodes to, or no row and then it decodes to
none (derived from 30_encoding.md section 3, 40_instruction_cycle.md section 1). That no word
matches two rows is an inference R88 marks as derived from R70 to R75. -/
def Obligations.ExactlyOneRowAppliesOrNone : Prop :=
  ∀ w : Word,
    (∃ i, decode w = .ok i ∧ rowOf i ∈ opcodeRows ∧
      ∀ r ∈ opcodeRows, r.matches w ↔ r = rowOf i) ∨
    ((∃ e, decode w = .error e) ∧ ∀ r ∈ opcodeRows, ¬r.matches w)

/-- A running core takes DecodeError exactly for the words of the six illegal cases, and changes
nothing else (states R76). The function-select values are the decisions D4, D10 and D11 of the
spec, log 10. -/
def Obligations.IllegalWordsRaiseDecodeError : Prop :=
  (∀ w : Word, IllegalWord w ↔ ∀ r ∈ opcodeRows, ¬r.matches w) ∧
    ∀ s : State, s.Active → s.pc.toNat + 4 ≤ s.cfg.memCapacity →
      (IllegalWord (wordAt s s.pc.toNat) →
        step s = .next { s with
          status := .faulted (.decodeError (BitVec.ofNat 7 (slice (wordAt s s.pc.toNat) 6 0))) }) ∧
      (¬IllegalWord (wordAt s s.pc.toNat) →
        ∃ i, decode (wordAt s s.pc.toNat) = .ok i ∧ step s = exec i s)

/-- The six fields stand at their fixed bit positions in every word (states R57). -/
def Obligations.FieldsStandAtTheirBits : Prop :=
  ∀ w : Word, (opcodeOf w).toNat = slice w 6 0 ∧ (rdOf w : ℕ) = slice w 11 7 ∧
    (funct3Of w).toNat = slice w 14 12 ∧ (rs1Of w : ℕ) = slice w 19 15 ∧
    (rs2Of w : ℕ) = slice w 24 20 ∧ (funct7Of w).toNat = slice w 31 25

/-- The five immediates of every word are the sign-extended values of their assembled bits (states
R63, R64, R65, R66, R67). -/
def Obligations.ImmediatesOfEveryWord : Prop :=
  ∀ w : Word,
    signed (immI w) = sext 12 (slice w 31 20) ∧
    signed (immS w) = sext 12 (slice w 31 25 * 2 ^ 5 + slice w 11 7) ∧
    signed (immB w) = sext 13 (slice w 31 31 * 2 ^ 12 + slice w 7 7 * 2 ^ 11 +
      slice w 30 25 * 2 ^ 5 + slice w 11 8 * 2) ∧
    ((immU w).toNat = slice w 31 12 * 2 ^ 12 ∧ immU w = w &&& 0xFFFFF000) ∧
    signed (immJ w) = sext 21 (slice w 31 31 * 2 ^ 20 + slice w 19 12 * 2 ^ 12 +
      slice w 20 20 * 2 ^ 11 + slice w 30 21 * 2)

/-- The example words of each family decode to the instructions they stand for (derived from
41_alu_register.md, 42_alu_immediate.md, 43_load_store.md, 44_branch.md, 45_upper_immediate.md,
46_jump_and_link.md, 47_system.md). -/
def Obligations.ExampleWordsDecode : Prop :=
  decode 0x002081B3 = .ok (.add 3 1 2) ∧ decode 0x402081B3 = .ok (.sub 3 1 2) ∧
    decode 0xFFF08193 = .ok (.addi 3 1 (-1)) ∧ decode 0x0080D193 = .ok (.srli 3 1 8) ∧
    decode 0x0040A183 = .ok (.lw 3 1 4) ∧ decode 0xFE20AE23 = .ok (.sw 2 1 (-4)) ∧
    decode 0x00208863 = .ok (.beq 1 2 16) ∧ decode 0xFE209CE3 = .ok (.bne 1 2 (-8)) ∧
    decode 0x123452B7 = .ok (.lui 5 0x12345) ∧ decode 0x344122EF = .ok (.jal 5 0x12344) ∧
    decode 0x00100073 = .ok .ecall

/-- A register reads as last written, register 0 as the policy says, and a write changes nothing else
(states R16, R17). -/
def Obligations.RegisterReadAfterWrite : Prop :=
  (∀ (s : State) (i j : RegIdx) (v : Word),
      (s.writeReg i v).readReg j =
          (if j = i ∧ ¬(s.cfg.x0Hardwired = true ∧ i = 0) then v else s.readReg j) ∧
        (s.writeReg i v).pc = s.pc ∧ SameButRegsAndPc s (s.writeReg i v)) ∧
    (∀ s : State, s.cfg.x0Hardwired = true → s.readReg 0 = 0) ∧
    ∀ (c : Config) (i : RegIdx), (State.resetWith c).readReg i = 0

/-- MemRead gives the little-endian value of its bytes, or OutOfBounds, at every address and width
(states R35). -/
def Obligations.MemReadIsLittleEndianAndBounded : Prop :=
  ∀ (s : State) (addr : Word) (access : Access) (width : Width) (n : ℕ),
    (width, n) ∈ [(Width.byte, 1), (Width.half, 2), (Width.word, 4)] →
    (s.cfg.memCapacity < addr.toNat + n →
      s.memRead addr width access = .error (.outOfBounds addr n access)) ∧
    (addr.toNat + n ≤ s.cfg.memCapacity →
      ∃ v, s.memRead addr width access = .ok v ∧
        v.toNat = ∑ i ∈ Finset.range n, (s.mem.read (addr.toNat + i)).toNat * 2 ^ (8 * i))

/-- MemWrite stores the low bytes little-endian and nothing else, or raises OutOfBounds and writes
nothing (states R36). -/
def Obligations.MemWriteIsAllOrNothing : Prop :=
  ∀ (s : State) (addr v : Word) (access : Access) (width : Width) (n : ℕ),
    s.mem.wf → (width, n) ∈ [(Width.byte, 1), (Width.half, 2), (Width.word, 4)] →
    (s.cfg.memCapacity < addr.toNat + n →
      s.memWrite addr width v access = .error (.outOfBounds addr n access)) ∧
    (addr.toNat + n ≤ s.cfg.memCapacity →
      ∃ t, s.memWrite addr width v access = .ok t ∧
        (∀ i < n, (t.mem.read (addr.toNat + i)).toNat = slice v (8 * i + 7) (8 * i)) ∧
        (∀ a, a < addr.toNat ∨ addr.toNat + n ≤ a → t.mem.read a = s.mem.read a) ∧
        (∀ i, t.readReg i = s.readReg i) ∧ t.pc = s.pc ∧ t.halted = s.halted ∧
        t.status = s.status ∧ t.cfg = s.cfg)

/-- After a word write, byte and halfword reads inside it give its bytes (derived from 20_memory.md
sections 1 and 2). R41 marks it as derived from R35 and R36. -/
def Obligations.WidthsSeeOneAnothersBytes : Prop :=
  ∀ (s t : State) (a v : Word) (access : Access), s.Inv → s.memWrite a .word v access = .ok t →
    (∀ k < 4, t.memRead (a + BitVec.ofNat 32 k) .byte access =
      .ok (BitVec.ofNat 32 (slice v (8 * k + 7) (8 * k)))) ∧
    t.memRead (a + 2) .half access = .ok (BitVec.ofNat 32 (slice v 31 16)) ∧
    ∀ (v' : Word) (d : ℕ) (u : State), d ∈ [1, 2, 3] →
      t.memWrite (a + BitVec.ofNat 32 d) .word v' access = .ok u →
      (∀ k < d, (u.mem.read (a.toNat + k)).toNat = slice v (8 * k + 7) (8 * k)) ∧
      ∀ k < 4, (u.mem.read (a.toNat + d + k)).toNat = slice v' (8 * k + 7) (8 * k)

/-- A 32-bit store followed by a load of the same width returns the value, at any alignment (derived
from 43_load_store.md, 20_memory.md sections 1 and 2). That it holds at any alignment and in
every later state with the same four bytes is an inference R120 marks as derived from R35 and
R36. -/
def Obligations.StoredWordLoadsBack : Prop :=
  ∀ (s : State) (a v : Word) (ac ac' : Access), s.mem.wf → a.toNat + 4 ≤ s.cfg.memCapacity →
    ∃ t, s.memWrite a .word v ac = .ok t ∧ t.memRead a .word ac' = .ok v ∧
      ∀ u : State, u.cfg = t.cfg →
        (∀ k < 4, u.mem.read (a.toNat + k) = t.mem.read (a.toNat + k)) →
        u.memRead a .word ac' = .ok v

/-- A running core whose pc holds a decodable word steps by executing that instruction (derived from
40_instruction_cycle.md section 1). -/
def Obligations.StepRunsTheDecodedInstruction : Prop :=
  ∀ (s : State) (i : Instr), s.Active → s.pc.toNat + 4 ≤ s.cfg.memCapacity →
    (decode (wordAt s s.pc.toNat) = .ok i → step s = exec i s) ∧
    (i.wellFormed = true → wordAt s s.pc.toNat = encode i → step s = exec i s)

/-- The fetch reads the four bytes at the pc little-endian, at any alignment, or raises OutOfBounds
(states R86). -/
def Obligations.FetchReadsTheWordAtThePc : Prop :=
  ∀ s : State,
    (s.cfg.memCapacity < s.pc.toNat + 4 → s.fetchWord = .error (.outOfBounds s.pc 4 .fetch)) ∧
    (s.pc.toNat + 4 ≤ s.cfg.memCapacity →
      s.fetchWord = .ok (s.mem.read (s.pc.toNat + 3) ++ s.mem.read (s.pc.toNat + 2) ++
        s.mem.read (s.pc.toNat + 1) ++ s.mem.read s.pc.toNat))

/-- A halted core stays as it is and a faulted core answers its fault (the model's choice, log 6)
(derived from 40_instruction_cycle.md section 1, 92_eei_decisions.md D22,
notes/assumptions/6.md). -/
def Obligations.StoppedCoreTakesNoStep : Prop :=
  ∀ s : State, (s.status = .halted → step s = .next s) ∧
    ∀ f, s.status = .faulted f → step s = .fault f

/-- A step that raises a fault changes nothing but the status, so the pc stays at the faulting
instruction (states R139). R139 rests on decision D16 of the spec, log 5. -/
def Obligations.FaultingStepChangesOnlyStatus : Prop :=
  ∀ (s t : State) (f : Fault), s.Active → step s = .next t → t.status = .faulted f →
    t = { s with status := .faulted f } ∧ t.pc = s.pc

/-- Which step raises which fault, with what it records, is exactly the table (states R135, R138).
What a fault records is decision D23 of the spec, log 10. -/
def Obligations.StepFaultsExactlyAsTabled : Prop :=
  ∀ s : State, s.Active →
    (s.cfg.memCapacity < s.pc.toNat + 4 →
      step s = .next { s with status := .faulted (.outOfBounds s.pc 4 .fetch) }) ∧
    (s.pc.toNat + 4 ≤ s.cfg.memCapacity →
      (∀ e, decode (wordAt s s.pc.toNat) = .error e →
        step s = .next { s with
          status := .faulted (.decodeError (opcodeOf (wordAt s s.pc.toNat))) }) ∧
      ∀ i, decode (wordAt s s.pc.toNat) = .ok i →
        ∃ t, step s = .next t ∧ ∀ f, t.status = .faulted f ↔
          (∃ rd rs1 imm, i = .lw rd rs1 imm ∧
            s.cfg.memCapacity < (effectiveAddress s rs1 imm).toNat + 4 ∧
            f = .outOfBounds (effectiveAddress s rs1 imm) 4 .load) ∨
          ∃ rs2 rs1 imm, i = .sw rs2 rs1 imm ∧
            s.cfg.memCapacity < (effectiveAddress s rs1 imm).toNat + 4 ∧
            f = .outOfBounds (effectiveAddress s rs1 imm) 4 .store)

/-- No instruction but ECALL sets the halt flag or the status Halted (derived from 10_state.md
section 3, 47_system.md). -/
def Obligations.OnlyEcallHalts : Prop :=
  ∀ (i : Instr) (s t : State), s.Active → exec i s = .next t →
    (t.halted = true ↔ i = .ecall) ∧ (t.status = .halted ↔ i = .ecall)

/-- The pc after each instruction: jump target, taken branch target, or pc + 4 (states R89). -/
def Obligations.PcUpdateOfEveryInstruction : Prop :=
  ∀ (i : Instr) (s t : State), s.Active → exec i s = .next t →
    (∀ f, t.status ≠ .faulted f) →
    t.pc = match i with
      | .jal _ offset => u32 (s.pc.toNat + sext 21 offset.toNat)
      | .beq rs1 rs2 offset =>
        if s.readReg rs1 = s.readReg rs2 then u32 (s.pc.toNat + sext 13 offset.toNat)
        else u32 (s.pc.toNat + 4)
      | .bne rs1 rs2 offset =>
        if s.readReg rs1 ≠ s.readReg rs2 then u32 (s.pc.toNat + sext 13 offset.toNat)
        else u32 (s.pc.toNat + 4)
      | _ => u32 (s.pc.toNat + 4)

/-- What each instruction leaves unchanged: all registers but its destination, all bytes but those SW
stores (derived from 10_state.md section 1, 20_memory.md section 1, 43_load_store.md). -/
def Obligations.FrameOfEveryInstruction : Prop :=
  ∀ (i : Instr) (s t : State), s.mem.wf → exec i s = .next t →
    (∀ r, i.destination ≠ some r → t.readReg r = s.readReg r) ∧
    (∀ a, (∀ rs2 rs1 imm, i = .sw rs2 rs1 imm →
        a < (effectiveAddress s rs1 imm).toNat ∨ (effectiveAddress s rs1 imm).toNat + 4 ≤ a) →
      t.mem.read a = s.mem.read a) ∧
    (i ≠ .ecall → t.halted = s.halted) ∧ t.cfg = s.cfg

/-- An instruction's effect depends on no register but its named sources (derived from 10_state.md
section 1). -/
def Obligations.InstructionReadsOnlyItsSources : Prop :=
  ∀ (i : Instr) (s s' t t' : State), s.Active → exec i s = .next t → exec i s' = .next t' →
    s'.pc = s.pc → s'.mem = s.mem → s'.halted = s.halted → s'.status = s.status →
    s'.cfg = s.cfg → (∀ r ∈ i.sources, s'.readReg r = s.readReg r) →
    t'.pc = t.pc ∧ t'.mem = t.mem ∧ t'.halted = t.halted ∧ t'.status = t.status ∧
    (∀ r, i.destination = some r → (∃ f, t.status = .faulted f) ∨ t'.readReg r = t.readReg r) ∧
    ∀ r, i.destination ≠ some r → t.readReg r = s.readReg r ∧ t'.readReg r = s'.readReg r

/-- A store over the next instruction is what the next fetch reads (derived from 20_memory.md section
6, 70_reset_and_hazards.md section 6). -/
def Obligations.StoreIsSeenByTheNextFetch : Prop :=
  ∀ (rs2 rs1 : RegIdx) (imm : BitVec 12) (s : State), s.Inv → s.Active →
    effectiveAddress s rs1 imm = u32 (s.pc.toNat + 4) →
    (effectiveAddress s rs1 imm).toNat + 4 ≤ s.cfg.memCapacity →
    ∃ t, exec (.sw rs2 rs1 imm) s = .next t ∧ t.fetchWord = .ok (s.readReg rs2) ∧
      ∀ i, decode (s.readReg rs2) = .ok i → step t = exec i t

/-- A run ends halted or faulted, with the halt flag to match, and a longer bound gives the same end
(derived from 40_instruction_cycle.md section 2). -/
def Obligations.RunEndsInOneOfTwoWaysAndStaysEnded : Prop :=
  ∀ (k : ℕ) (s : State), s.Inv →
    (∀ t, run k s = .halted t →
      t.status = .halted ∧ t.halted = true ∧ ∀ j, k ≤ j → run j s = .halted t) ∧
    (∀ t f, run k s = .faulted t f →
      t.status = .faulted f ∧ t.halted = false ∧ ∀ j, k ≤ j → run j s = .faulted t f) ∧
    ∀ t, run k s = .notEnded t → t.Active

/-- ADD completes with x[rd] = u32(x[rs1] + x[rs2]) (states R99). -/
def Obligations.AddWritesTheSum : Prop :=
  ∀ (rd rs1 rs2 : RegIdx) (s : State), s.Active →
    decode (0b0000000#7 ++ reg5 rs2 ++ reg5 rs1 ++ 0b000#3 ++ reg5 rd ++ 0b0110011#7) =
      .ok (.add rd rs1 rs2) ∧
    ∃ t, exec (.add rd rs1 rs2) s = .next t ∧
      WritesRegister s t rd (u32 ((s.readReg rs1).toNat + (s.readReg rs2).toNat))
        (u32 (s.pc.toNat + 4))

/-- SUB completes with x[rd] = u32(x[rs1] - x[rs2]) (states R100). -/
def Obligations.SubWritesTheDifference : Prop :=
  ∀ (rd rs1 rs2 : RegIdx) (s : State), s.Active →
    decode (0b0100000#7 ++ reg5 rs2 ++ reg5 rs1 ++ 0b000#3 ++ reg5 rd ++ 0b0110011#7) =
      .ok (.sub rd rs1 rs2) ∧
    ∃ t, exec (.sub rd rs1 rs2) s = .next t ∧
      WritesRegister s t rd (u32 (((s.readReg rs1).toNat : ℤ) - (s.readReg rs2).toNat))
        (u32 (s.pc.toNat + 4))

/-- SLL completes with x[rd] = u32(x[rs1] * 2^sh), sh the low 5 bits of x[rs2] (states R101). The
amount being the low 5 bits is decision D8 of the spec, log 10. -/
def Obligations.SllShiftsLeft : Prop :=
  ∀ (rd rs1 rs2 : RegIdx) (s : State), s.Active →
    decode (0b0000000#7 ++ reg5 rs2 ++ reg5 rs1 ++ 0b001#3 ++ reg5 rd ++ 0b0110011#7) =
      .ok (.sll rd rs1 rs2) ∧
    ∃ t, exec (.sll rd rs1 rs2) s = .next t ∧
      WritesRegister s t rd (u32 ((s.readReg rs1).toNat * 2 ^ slice (s.readReg rs2) 4 0))
        (u32 (s.pc.toNat + 4))

/-- SLT completes with x[rd] = 1 or 0 by the comparison SLT_SIGNED selects (states R102). It covers
both settings of the parameter that decision D7 leaves open. -/
def Obligations.SltSetsOnLess : Prop :=
  ∀ (rd rs1 rs2 : RegIdx) (s : State), s.Active →
    decode (0b0000000#7 ++ reg5 rs2 ++ reg5 rs1 ++ 0b010#3 ++ reg5 rd ++ 0b0110011#7) =
      .ok (.slt rd rs1 rs2) ∧
    (∃ t, exec (.slt rd rs1 rs2) s = .next t ∧
      WritesRegister s t rd (if (if s.cfg.sltSigned = true then signed (s.readReg rs1) < signed (s.readReg rs2)
          else (s.readReg rs1).toNat < (s.readReg rs2).toNat) then 1 else 0)
        (u32 (s.pc.toNat + 4))) ∧
    ((signed (s.readReg rs1) < signed (s.readReg rs2) ↔
        (s.readReg rs1).toNat < (s.readReg rs2).toNat) ↔
      slice (s.readReg rs1) 31 31 = slice (s.readReg rs2) 31 31)

/-- XOR completes with x[rd] = x[rs1] ^ x[rs2] (states R103). -/
def Obligations.XorWritesExclusiveOr : Prop :=
  ∀ (rd rs1 rs2 : RegIdx) (s : State), s.Active →
    decode (0b0000000#7 ++ reg5 rs2 ++ reg5 rs1 ++ 0b100#3 ++ reg5 rd ++ 0b0110011#7) =
      .ok (.xor rd rs1 rs2) ∧
    ∃ t, exec (.xor rd rs1 rs2) s = .next t ∧
      WritesRegister s t rd ((s.readReg rs1) ^^^ (s.readReg rs2))
        (u32 (s.pc.toNat + 4))

/-- SRL completes with x[rd] = floor(x[rs1] / 2^sh), sh the low 5 bits of x[rs2] (states R104). The
amount being the low 5 bits is decision D8 of the spec, log 10. -/
def Obligations.SrlShiftsRight : Prop :=
  ∀ (rd rs1 rs2 : RegIdx) (s : State), s.Active →
    decode (0b0000000#7 ++ reg5 rs2 ++ reg5 rs1 ++ 0b101#3 ++ reg5 rd ++ 0b0110011#7) =
      .ok (.srl rd rs1 rs2) ∧
    (∃ e, decode (0b0100000#7 ++ reg5 rs2 ++ reg5 rs1 ++ 0b101#3 ++ reg5 rd ++ 0b0110011#7) =
      .error e) ∧
    ∃ t, exec (.srl rd rs1 rs2) s = .next t ∧
      WritesRegister s t rd (u32 ((s.readReg rs1).toNat / 2 ^ slice (s.readReg rs2) 4 0 : ℕ))
        (u32 (s.pc.toNat + 4))

/-- OR completes with x[rd] = x[rs1] | x[rs2] (states R105). -/
def Obligations.OrWritesInclusiveOr : Prop :=
  ∀ (rd rs1 rs2 : RegIdx) (s : State), s.Active →
    decode (0b0000000#7 ++ reg5 rs2 ++ reg5 rs1 ++ 0b110#3 ++ reg5 rd ++ 0b0110011#7) =
      .ok (.or rd rs1 rs2) ∧
    ∃ t, exec (.or rd rs1 rs2) s = .next t ∧
      WritesRegister s t rd ((s.readReg rs1) ||| (s.readReg rs2))
        (u32 (s.pc.toNat + 4))

/-- AND completes with x[rd] = x[rs1] & x[rs2] (states R106). -/
def Obligations.AndWritesConjunction : Prop :=
  ∀ (rd rs1 rs2 : RegIdx) (s : State), s.Active →
    decode (0b0000000#7 ++ reg5 rs2 ++ reg5 rs1 ++ 0b111#3 ++ reg5 rd ++ 0b0110011#7) =
      .ok (.and rd rs1 rs2) ∧
    ∃ t, exec (.and rd rs1 rs2) s = .next t ∧
      WritesRegister s t rd ((s.readReg rs1) &&& (s.readReg rs2))
        (u32 (s.pc.toNat + 4))

/-- ADDI completes with x[rd] = u32(x[rs1] + immI) for every 12-bit immediate (states R109). -/
def Obligations.AddiWritesTheSum : Prop :=
  ∀ (rd rs1 : RegIdx) (imm : BitVec 12) (s : State), s.Active →
    decode (imm ++ reg5 rs1 ++ 0b000#3 ++ reg5 rd ++ 0b0010011#7) = .ok (.addi rd rs1 imm) ∧
    ∃ t, exec (.addi rd rs1 imm) s = .next t ∧
      WritesRegister s t rd (u32 ((s.readReg rs1).toNat + sext 12 imm.toNat))
        (u32 (s.pc.toNat + 4))

/-- SLLI completes with x[rd] = u32(x[rs1] * 2^sh); word[31:25] must be 0 (states R110). The check of
word[31:25] is decision D10 of the spec, log 10. -/
def Obligations.SlliShiftsLeft : Prop :=
  ∀ (rd rs1 : RegIdx) (shamt : BitVec 5) (s : State), s.Active →
    decode (0b0000000#7 ++ shamt ++ reg5 rs1 ++ 0b001#3 ++ reg5 rd ++ 0b0010011#7) =
      .ok (.slli rd rs1 shamt) ∧
    (∀ f7 : BitVec 7, f7 ≠ 0 →
      ∃ e, decode (f7 ++ shamt ++ reg5 rs1 ++ 0b001#3 ++ reg5 rd ++ 0b0010011#7) = .error e) ∧
    ∃ t, exec (.slli rd rs1 shamt) s = .next t ∧
      WritesRegister s t rd (u32 ((s.readReg rs1).toNat * 2 ^ shamt.toNat))
        (u32 (s.pc.toNat + 4))

/-- SLTI completes with x[rd] = 1 or 0, comparing with the sign-extended immediate as SLT_SIGNED
selects (states R111). It covers both settings of the parameter that decision D7 leaves open. -/
def Obligations.SltiSetsOnLess : Prop :=
  ∀ (rd rs1 : RegIdx) (imm : BitVec 12) (s : State), s.Active →
    decode (imm ++ reg5 rs1 ++ 0b010#3 ++ reg5 rd ++ 0b0010011#7) = .ok (.slti rd rs1 imm) ∧
    ∃ t, exec (.slti rd rs1 imm) s = .next t ∧
      WritesRegister s t rd (if (if s.cfg.sltSigned = true then signed (s.readReg rs1) < sext 12 imm.toNat
          else (s.readReg rs1).toNat < (u32 (sext 12 imm.toNat)).toNat) then 1 else 0)
        (u32 (s.pc.toNat + 4))

/-- XORI completes with x[rd] = x[rs1] ^ u32(immI) (states R112). -/
def Obligations.XoriWritesExclusiveOr : Prop :=
  ∀ (rd rs1 : RegIdx) (imm : BitVec 12) (s : State), s.Active →
    decode (imm ++ reg5 rs1 ++ 0b100#3 ++ reg5 rd ++ 0b0010011#7) = .ok (.xori rd rs1 imm) ∧
    ∃ t, exec (.xori rd rs1 imm) s = .next t ∧
      WritesRegister s t rd ((s.readReg rs1) ^^^ u32 (sext 12 imm.toNat))
        (u32 (s.pc.toNat + 4))

/-- SRLI completes with x[rd] = floor(x[rs1] / 2^sh); word[31:25] must be 0 (states R113). The check
of word[31:25] is decision D10 of the spec, log 10. -/
def Obligations.SrliShiftsRight : Prop :=
  ∀ (rd rs1 : RegIdx) (shamt : BitVec 5) (s : State), s.Active →
    decode (0b0000000#7 ++ shamt ++ reg5 rs1 ++ 0b101#3 ++ reg5 rd ++ 0b0010011#7) =
      .ok (.srli rd rs1 shamt) ∧
    (∀ f7 : BitVec 7, f7 ≠ 0 →
      ∃ e, decode (f7 ++ shamt ++ reg5 rs1 ++ 0b101#3 ++ reg5 rd ++ 0b0010011#7) = .error e) ∧
    ∃ t, exec (.srli rd rs1 shamt) s = .next t ∧
      WritesRegister s t rd (u32 ((s.readReg rs1).toNat / 2 ^ shamt.toNat : ℕ))
        (u32 (s.pc.toNat + 4))

/-- ORI completes with x[rd] = x[rs1] | u32(immI) (states R114). -/
def Obligations.OriWritesInclusiveOr : Prop :=
  ∀ (rd rs1 : RegIdx) (imm : BitVec 12) (s : State), s.Active →
    decode (imm ++ reg5 rs1 ++ 0b110#3 ++ reg5 rd ++ 0b0010011#7) = .ok (.ori rd rs1 imm) ∧
    ∃ t, exec (.ori rd rs1 imm) s = .next t ∧
      WritesRegister s t rd ((s.readReg rs1) ||| u32 (sext 12 imm.toNat))
        (u32 (s.pc.toNat + 4))

/-- ANDI completes with x[rd] = x[rs1] & u32(immI) (states R115). -/
def Obligations.AndiWritesConjunction : Prop :=
  ∀ (rd rs1 : RegIdx) (imm : BitVec 12) (s : State), s.Active →
    decode (imm ++ reg5 rs1 ++ 0b111#3 ++ reg5 rd ++ 0b0010011#7) = .ok (.andi rd rs1 imm) ∧
    ∃ t, exec (.andi rd rs1 imm) s = .next t ∧
      WritesRegister s t rd ((s.readReg rs1) &&& u32 (sext 12 imm.toNat))
        (u32 (s.pc.toNat + 4))

/-- LW completes with the four bytes at ea in x[rd], or takes OutOfBounds and changes nothing else
(states R118). The opcode and funct3 are decisions D4 and D5 of the spec, log 10. -/
def Obligations.LwLoadsTheWord : Prop :=
  ∀ (rd rs1 : RegIdx) (imm : BitVec 12) (s : State), s.Active →
    decode (imm ++ reg5 rs1 ++ 0b010#3 ++ reg5 rd ++ 0b0000011#7) = .ok (.lw rd rs1 imm) ∧
    effectiveAddress s rs1 imm = u32 ((s.readReg rs1).toNat + sext 12 imm.toNat) ∧
    ((effectiveAddress s rs1 imm).toNat + 4 ≤ s.cfg.memCapacity →
      ∃ t, exec (.lw rd rs1 imm) s = .next t ∧
        WritesRegister s t rd (wordAt s (effectiveAddress s rs1 imm).toNat) (u32 (s.pc.toNat + 4))) ∧
    (s.cfg.memCapacity < (effectiveAddress s rs1 imm).toNat + 4 →
      exec (.lw rd rs1 imm) s = .next { s with
        status := .faulted (.outOfBounds (effectiveAddress s rs1 imm) 4 .load) })

/-- SW completes with the four bytes of x[rs2] at ea and nothing else, or takes OutOfBounds and
writes nothing (states R119). The funct3 is decision D11 of the spec, log 10. -/
def Obligations.SwStoresTheWord : Prop :=
  ∀ (rs2 rs1 : RegIdx) (imm : BitVec 12) (s : State), s.Active → s.mem.wf →
    decode (imm.extractLsb' 5 7 ++ reg5 rs2 ++ reg5 rs1 ++ 0b010#3 ++ imm.extractLsb' 0 5 ++
      0b0100011#7) = .ok (.sw rs2 rs1 imm) ∧
    effectiveAddress s rs1 imm = u32 ((s.readReg rs1).toNat + sext 12 imm.toNat) ∧
    ((effectiveAddress s rs1 imm).toNat + 4 ≤ s.cfg.memCapacity →
      ∃ t, exec (.sw rs2 rs1 imm) s = .next t ∧
        (∀ k < 4, (t.mem.read ((effectiveAddress s rs1 imm).toNat + k)).toNat =
          slice (s.readReg rs2) (8 * k + 7) (8 * k)) ∧
        (∀ a, a < (effectiveAddress s rs1 imm).toNat ∨ (effectiveAddress s rs1 imm).toNat + 4 ≤ a →
          t.mem.read a = s.mem.read a) ∧
        (∀ i, t.readReg i = s.readReg i) ∧ t.pc = u32 (s.pc.toNat + 4) ∧
        t.halted = s.halted ∧ t.status = s.status ∧ t.cfg = s.cfg) ∧
    (s.cfg.memCapacity < (effectiveAddress s rs1 imm).toNat + 4 →
      exec (.sw rs2 rs1 imm) s = .next { s with
        status := .faulted (.outOfBounds (effectiveAddress s rs1 imm) 4 .store) })

/-- BEQ completes with pc + immB if the registers are equal, else pc + 4, and changes nothing else
(states R123). The funct3 is decision D4 of the spec, log 10. -/
def Obligations.BeqBranchesOnEqual : Prop :=
  ∀ (rs1 rs2 : RegIdx) (offset : BitVec 13) (s : State), s.Active →
    (offset.getLsbD 0 = false →
      decode (offset.extractLsb' 12 1 ++ offset.extractLsb' 5 6 ++ reg5 rs2 ++ reg5 rs1 ++
        0b000#3 ++ offset.extractLsb' 1 4 ++ offset.extractLsb' 11 1 ++ 0b1100011#7) =
        .ok (.beq rs1 rs2 offset)) ∧
    ∃ t, exec (.beq rs1 rs2 offset) s = .next t ∧
      WritesPcOnly s t (if s.readReg rs1 = s.readReg rs2
        then u32 (s.pc.toNat + sext 13 offset.toNat) else u32 (s.pc.toNat + 4))

/-- BNE completes with pc + immB if the registers differ, else pc + 4, and changes nothing else
(states R124). The funct3 is decision D4 of the spec, log 10. -/
def Obligations.BneBranchesOnDifferent : Prop :=
  ∀ (rs1 rs2 : RegIdx) (offset : BitVec 13) (s : State), s.Active →
    (offset.getLsbD 0 = false →
      decode (offset.extractLsb' 12 1 ++ offset.extractLsb' 5 6 ++ reg5 rs2 ++ reg5 rs1 ++
        0b001#3 ++ offset.extractLsb' 1 4 ++ offset.extractLsb' 11 1 ++ 0b1100011#7) =
        .ok (.bne rs1 rs2 offset)) ∧
    ∃ t, exec (.bne rs1 rs2 offset) s = .next t ∧
      WritesPcOnly s t (if s.readReg rs1 ≠ s.readReg rs2
        then u32 (s.pc.toNat + sext 13 offset.toNat) else u32 (s.pc.toNat + 4))

/-- LUI completes with x[rd] = imm20 above 12 zero bits (states R126). -/
def Obligations.LuiLoadsTheUpperImmediate : Prop :=
  ∀ (rd : RegIdx) (imm20 : BitVec 20) (s : State), s.Active →
    decode (imm20 ++ reg5 rd ++ 0b0110111#7) = .ok (.lui rd imm20) ∧
    ∃ t, exec (.lui rd imm20) s = .next t ∧
      WritesRegister s t rd (u32 (imm20.toNat * 2 ^ 12)) (u32 (s.pc.toNat + 4))

/-- JAL completes with x[rd] = u32(pc + 4) and pc = u32(pc + immJ) (states R128). -/
def Obligations.JalLinksAndJumps : Prop :=
  ∀ (rd : RegIdx) (offset : BitVec 21) (s : State), s.Active →
    (offset.getLsbD 0 = false →
      decode (offset.extractLsb' 20 1 ++ offset.extractLsb' 1 10 ++ offset.extractLsb' 11 1 ++
        offset.extractLsb' 12 8 ++ reg5 rd ++ 0b1101111#7) = .ok (.jal rd offset)) ∧
    ∃ t, exec (.jal rd offset) s = .next t ∧
      WritesRegister s t rd (u32 (s.pc.toNat + 4)) (u32 (s.pc.toNat + sext 21 offset.toNat))

/-- ECALL, any word with opcode 0x73, completes with the halt flag set, status Halted and pc + 4
(states R131). That 25 bits are ignored and the pc advances are decisions D12 and D13 of the
spec, log 10. -/
def Obligations.EcallHaltsTheCore : Prop :=
  (∀ w : Word, slice w 6 0 = 0b1110011 → decode w = .ok .ecall) ∧
    (∀ s : State, s.Active →
      ∃ t, exec .ecall s = .next t ∧ t.halted = true ∧ t.status = .halted ∧
        t.pc = u32 (s.pc.toNat + 4) ∧ (∀ i, t.readReg i = s.readReg i) ∧
        (∀ a, t.mem.read a = s.mem.read a) ∧ t.cfg = s.cfg) ∧
    ∀ (i : Instr) (s t : State), s.Active → exec i s = .next t → i ≠ .ecall → t.halted = false

/-- ADD then SUB with the same operands restores the first operand, and there is no multiply or
divide word (states R107). -/
def Obligations.AddThenSubRestores : Prop :=
  (∀ (rd rs1 rs2 : RegIdx) (s : State), s.Active → rd ≠ rs2 →
      ∃ t u, exec (.add rd rs1 rs2) s = .next t ∧ exec (.sub rd rd rs2) t = .next u ∧
        u.readReg rd = if s.cfg.x0Hardwired = true ∧ rd = 0 then 0 else s.readReg rs1) ∧
    ∀ w : Word, slice w 6 0 = 0x33 → slice w 31 25 = 1 → ∃ e, decode w = .error e

/-- LUI then ADDI builds any 32-bit constant, whatever the registers held (states R127). -/
def Obligations.LuiAddiBuildsAnyConstant : Prop :=
  (∀ (rd : RegIdx) (v : Word) (s : State), s.Active →
      ∃ t u, exec (.lui rd (BitVec.ofNat 20
            (slice (u32 ((v.toNat : ℤ) - sext 12 (slice v 11 0))) 31 12))) s = .next t ∧
        exec (.addi rd rd (BitVec.ofNat 12 (slice v 11 0))) t = .next u ∧
        ∀ i, u.readReg i =
          if i = rd ∧ ¬(s.cfg.x0Hardwired = true ∧ rd = 0) then v else s.readReg i) ∧
    (∀ v : Word, slice (u32 ((v.toNat : ℤ) - sext 12 (slice v 11 0))) 31 12 =
      (slice v 31 12 + slice v 11 11) % 2 ^ 20) ∧
    ∀ w : Word, slice w 6 0 = 0x17 → ∃ e, decode w = .error e

/-- While register 0 holds 0 and is not written, both X0_HARDWIRED policies give the same effect
(derived from 10_state.md section 1, 70_reset_and_hazards.md section 6). -/
def Obligations.RegisterZeroPoliciesAgree : Prop :=
  ∀ (i : Instr) (s : State), s.regs[0] = 0 → i.destination ≠ some 0 →
    ∃ t : State, ∀ b : Bool,
      exec i { s with cfg := { s.cfg with x0Hardwired := b } } =
        .next { t with cfg := { t.cfg with x0Hardwired := b } }

/-- LoadBlock copies the whole block, or fails with MemoryOverflow and writes nothing (states R38). -/
def Obligations.LoadBlockCopiesOrRefuses : Prop :=
  ∀ (s : State) (base : Word) (bytes : List Byte), s.mem.wf →
    (s.cfg.memCapacity < base.toNat + bytes.length →
      ∃ b n, s.loadBlock base bytes = .error (.memoryOverflow b n)) ∧
    (base.toNat + bytes.length ≤ s.cfg.memCapacity →
      ∃ t, s.loadBlock base bytes = .ok t ∧
        (∀ i (h : i < bytes.length), t.mem.read (base.toNat + i) = bytes[i]) ∧
        (∀ a, a < base.toNat ∨ base.toNat + bytes.length ≤ a →
          t.mem.read a = s.mem.read a) ∧
        (∀ i, t.readReg i = s.readReg i) ∧ t.pc = s.pc ∧ t.halted = s.halted ∧
        t.status = s.status ∧ t.cfg = s.cfg)

/-- The launch state: reset, the last covering segment's byte at each address, pc = ENTRY (states
R168). R168 rests on decisions D17 and D25 of the spec, log 10. -/
def Obligations.LaunchStateHoldsTheImage : Prop :=
  ∀ (c : Config) (image : List (Word × List Byte)) (entry : Word),
    ((∀ g ∈ image, g.1.toNat + g.2.length ≤ c.memCapacity) →
      ∃ s, launch c image entry = .ok s ∧ (∀ i, s.readReg i = 0) ∧ s.pc = entry ∧
        s.halted = false ∧ s.status = .running ∧ s.cfg = c ∧
        ∀ a, s.mem.read a = imageByte image a) ∧
    ((∃ g ∈ image, c.memCapacity < g.1.toNat + g.2.length) →
      ∃ base n, launch c image entry = .error (.memoryOverflow base n))

/-- The loader fails with InvalidFormat exactly when the file does not begin with the ELF magic
(derived from 70_reset_and_hazards.md section 3, notes/assumptions/9.md). The magic bytes are
decision D21 of the spec, log 10. That a file of fewer than four bytes is InvalidFormat, and that
one with the magic but too short is another error, is the model's choice, log 9. -/
def Obligations.LoaderChecksTheMagicOnly : Prop :=
  ∀ (c : Config) (file : List Byte),
    launchElf c file = .error .invalidFormat ↔ file.take 4 ≠ [0x7F, 0x45, 0x4C, 0x46]

/-- Loading a file with one loadable segment copies exactly its bytes and seeds the pc with the
entry, or fails with MemoryOverflow (derived from 70_reset_and_hazards.md section 3,
95_test_vectors.md section 1, notes/assumptions/9.md). The magic and the offsets are decision D21
of the spec, log 10; that the entry size is the header's and that an empty segment's file offset
lies in the file are the model's choice, log 9. -/
def Obligations.LoaderCopiesOneSegment : Prop :=
  ∀ (c : Config) (file : List Byte) (h : ElfHeader) (ps : List ProgramHeader) (p : ProgramHeader),
    file.take 4 = [0x7F, 0x45, 0x4C, 0x46] → readElfHeader file = .ok h →
    h.tableOffset + h.count * h.entrySize ≤ file.length → ps.length = h.count →
    (∀ i (hi : i < ps.length),
      readProgramHeader file (h.tableOffset + i * h.entrySize) = .ok ps[i]) →
    ps.filter (fun q => q.segmentType = 1) = [p] → p.fileOffset + p.fileSize ≤ file.length →
    (c.memCapacity < p.virtualAddress + p.fileSize →
      ∃ base n, launchElf c file = .error (.memoryOverflow base n)) ∧
    (p.virtualAddress + p.fileSize ≤ c.memCapacity →
      ∃ s, launchElf c file = .ok s ∧ s.pc.toNat = h.entry ∧ s.status = .running ∧
        s.halted = false ∧ (∀ i, s.readReg i = 0) ∧
        (∀ k < p.fileSize,
          some (s.mem.read (p.virtualAddress + k)) = file[p.fileOffset + k]?) ∧
        ∀ a, a < p.virtualAddress ∨ p.virtualAddress + p.fileSize ≤ a → s.mem.read a = 0)

/-- A file that loads holds its whole header, its whole program-header table and every loadable
segment, and each of these fits in memory (derived from 70_reset_and_hazards.md section 3,
93_implementation_defined.md U14, notes/assumptions/9.md). The lengths and the offsets are
general knowledge of the spec, log 10; that a range of no bytes must lie in the file is the
model's choice, log 9. -/
def Obligations.LoadedFileIsWhole : Prop :=
  ∀ (c : Config) (file : List Byte) (s : State), launchElf c file = .ok s →
    52 ≤ file.length ∧ ∃ h, readElfHeader file = .ok h ∧
      h.tableOffset + h.count * h.entrySize ≤ file.length ∧
      ∀ i < h.count, ∃ p,
        readProgramHeader file (h.tableOffset + i * h.entrySize) = .ok p ∧
        (p.segmentType = 1 → p.fileOffset + p.fileSize ≤ file.length ∧
          p.virtualAddress + p.fileSize ≤ c.memCapacity)

/-- MemoryOverflow records the base address and the length of the first block or segment that does
not fit (the model's choice, log 17) (derived from 20_memory.md section 1,
70_reset_and_hazards.md section 3, notes/assumptions/17.md). -/
def Obligations.MemoryOverflowNamesTheBlock : Prop :=
  (∀ (s : State) (base : Word) (bytes : List Byte), s.cfg.memCapacity < base.toNat + bytes.length →
      s.loadBlock base bytes = .error (.memoryOverflow base.toNat bytes.length)) ∧
    (∀ (c : Config) (before after : List (Word × List Byte)) (g : Word × List Byte) (entry : Word),
      (∀ f ∈ before, f.1.toNat + f.2.length ≤ c.memCapacity) →
      c.memCapacity < g.1.toNat + g.2.length →
      launch c (before ++ g :: after) entry = .error (.memoryOverflow g.1.toNat g.2.length)) ∧
    ∀ (c : Config) (file : List Byte) (h : ElfHeader) (j : ℕ) (p : ProgramHeader),
      file.take 4 = [0x7F, 0x45, 0x4C, 0x46] → readElfHeader file = .ok h →
      h.tableOffset + h.count * h.entrySize ≤ file.length → j < h.count →
      (∀ i < j, ∃ q, readProgramHeader file (h.tableOffset + i * h.entrySize) = .ok q ∧
        q.segmentType ≠ 1) →
      readProgramHeader file (h.tableOffset + j * h.entrySize) = .ok p → p.segmentType = 1 →
      c.memCapacity < p.virtualAddress + p.fileSize →
      launchElf c file = .error (.memoryOverflow p.virtualAddress p.fileSize)

/-- Each host operation is performed in the phases the table gives it and refused with nothing
changed in every other (derived from 70_reset_and_hazards.md section 2,
93_implementation_defined.md U13, notes/assumptions/15.md). That a failed LoadBlock leaves only
reset and reads open is the model's choice, log 15. -/
def Obligations.HostOperationsAreOpenOnlyWhenTheTableSays : Prop :=
  ∀ h : Session,
    (h.phase = .inRun → ∀ c, h.request c = (.error .notAllowed, h)) ∧
    (h.phase ≠ .beforeRun →
      (∀ base bytes, h.request (.loadBlock base bytes) = (.error .notAllowed, h)) ∧
      (∀ v, h.request (.setPc v) = (.error .notAllowed, h)) ∧
      h.request .run = (.error .notAllowed, h)) ∧
    (h.phase = .beforeRun →
      (∀ base bytes,
        (∀ t, h.core.loadBlock base bytes = .ok t →
          h.request (.loadBlock base bytes) = (.ok .done, { h with core := t })) ∧
        ∀ e, h.core.loadBlock base bytes = .error e →
          h.request (.loadBlock base bytes) = (.error e, { h with phase := .loadFailed })) ∧
      (∀ v, h.request (.setPc v) = (.ok .done, { h with core := { h.core with pc := v } })) ∧
      h.request .run = (.ok .done, { h with phase := .inRun })) ∧
    (h.phase ≠ .inRun →
      h.request .reset = (.ok .done, Session.new h.core.cfg) ∧
      (∀ i, h.request (.readReg i) = (.ok (.word (h.core.readReg i)), h)) ∧
      h.request .readPc = (.ok (.word h.core.pc), h) ∧
      h.request .readStatus = (.ok (.status h.core.status h.core.halted), h) ∧
      ∀ a n, (a + n ≤ h.core.cfg.memCapacity →
          ∃ bs : List Byte, h.request (.readMem a n) = (.ok (.bytes bs), h) ∧ bs.length = n ∧
            ∀ k < n, bs[k]? = some (h.core.mem.read (a + k))) ∧
        (h.core.cfg.memCapacity < a + n → ∃ e, h.request (.readMem a n) = (.error e, h)))

/-- A new instance satisfies the session's invariant, and every host operation and every step keeps
it (derived from 70_reset_and_hazards.md sections 1 and 2, 40_instruction_cycle.md section 2). -/
def Obligations.SessionInvariantIsKept : Prop :=
  (∀ c : Config, c.wf → (Session.new c).Inv) ∧
    ∀ h : Session, h.Inv →
      (∀ c, (h.request c).2.Inv) ∧ h.tick.Inv ∧ (h.phase ≠ .inRun → h.tick = h)

/-- LoadBlock of each segment, SetPc and Run on a new instance run it from the launch state, and Run
returns the end of that run (derived from 70_reset_and_hazards.md sections 2 and 4,
40_instruction_cycle.md section 2). That after a failed LoadBlock the rest is refused is the
model's choice, log 15. -/
def Obligations.HostCommandsLaunchAndRun : Prop :=
  ∀ (c : Config) (image : List (Word × List Byte)) (entry : Word),
    (∀ s, launch c image entry = .ok s →
      (Session.new c).issue
          (image.map (fun g => .loadBlock g.1 g.2) ++ [.setPc entry, .run]) =
        { phase := .inRun, core := s } ∧
      ∀ k, (Session.ticks k { phase := .inRun, core := s }).returned =
        match run k s with
        | .halted t => some (.halted t)
        | .faulted t f => some (.faulted t f)
        | .notEnded _ => none) ∧
    ∀ e, launch c image entry = .error e →
      ((Session.new c).issue
        (image.map (fun g => .loadBlock g.1 g.2) ++ [.setPc entry, .run])).phase = .loadFailed
end

