-- ==== Sys2Proof/Laws/Encoding.lean ====
section
/-! SUPPORT. What the fields of an encoded word are, one lemma per field and format, and the row that
each format's words match. -/

namespace Sys2Proof

@[simp] theorem toFin_regBits (r : RegIdx) : (regBits r).toFin = r := rfl

/-! R format. -/

@[simp] theorem opcodeOf_encodeR (f7 : BitVec 7) (f3 : BitVec 3) (rd rs1 rs2 : RegIdx) :
    opcodeOf (encodeR f7 f3 rd rs1 rs2) = 0x33#7 := by
  ext i hi
  simp [opcodeOf, encodeR]
  grind

@[simp] theorem funct7Of_encodeR (f7 : BitVec 7) (f3 : BitVec 3) (rd rs1 rs2 : RegIdx) :
    funct7Of (encodeR f7 f3 rd rs1 rs2) = f7 := by
  ext i hi
  simp [funct7Of, encodeR]
  grind

@[simp] theorem funct3Of_encodeR (f7 : BitVec 7) (f3 : BitVec 3) (rd rs1 rs2 : RegIdx) :
    funct3Of (encodeR f7 f3 rd rs1 rs2) = f3 := by
  ext i hi
  simp [funct3Of, encodeR]
  grind

@[simp] theorem rdOf_encodeR (f7 : BitVec 7) (f3 : BitVec 3) (rd rs1 rs2 : RegIdx) :
    rdOf (encodeR f7 f3 rd rs1 rs2) = rd := by
  have h : (encodeR f7 f3 rd rs1 rs2).extractLsb' 7 5 = regBits rd := by
    ext i hi
    simp [encodeR]
    grind
  rw [rdOf, h, toFin_regBits]

@[simp] theorem rs1Of_encodeR (f7 : BitVec 7) (f3 : BitVec 3) (rd rs1 rs2 : RegIdx) :
    rs1Of (encodeR f7 f3 rd rs1 rs2) = rs1 := by
  have h : (encodeR f7 f3 rd rs1 rs2).extractLsb' 15 5 = regBits rs1 := by
    ext i hi
    simp [encodeR]
    grind
  rw [rs1Of, h, toFin_regBits]

@[simp] theorem rs2Of_encodeR (f7 : BitVec 7) (f3 : BitVec 3) (rd rs1 rs2 : RegIdx) :
    rs2Of (encodeR f7 f3 rd rs1 rs2) = rs2 := by
  have h : (encodeR f7 f3 rd rs1 rs2).extractLsb' 20 5 = regBits rs2 := by
    ext i hi
    simp [encodeR]
    grind
  rw [rs2Of, h, toFin_regBits]

/-! I format. -/

@[simp] theorem opcodeOf_encodeI (op : BitVec 7) (f3 : BitVec 3) (rd rs1 : RegIdx) (imm : BitVec 12) :
    opcodeOf (encodeI op f3 rd rs1 imm) = op := by
  ext i hi
  simp [opcodeOf, encodeI]
  grind

@[simp] theorem funct3Of_encodeI (op : BitVec 7) (f3 : BitVec 3) (rd rs1 : RegIdx) (imm : BitVec 12) :
    funct3Of (encodeI op f3 rd rs1 imm) = f3 := by
  ext i hi
  simp [funct3Of, encodeI]
  grind

@[simp] theorem rdOf_encodeI (op : BitVec 7) (f3 : BitVec 3) (rd rs1 : RegIdx) (imm : BitVec 12) :
    rdOf (encodeI op f3 rd rs1 imm) = rd := by
  have h : (encodeI op f3 rd rs1 imm).extractLsb' 7 5 = regBits rd := by
    ext i hi
    simp [encodeI]
    grind
  rw [rdOf, h, toFin_regBits]

@[simp] theorem rs1Of_encodeI (op : BitVec 7) (f3 : BitVec 3) (rd rs1 : RegIdx) (imm : BitVec 12) :
    rs1Of (encodeI op f3 rd rs1 imm) = rs1 := by
  have h : (encodeI op f3 rd rs1 imm).extractLsb' 15 5 = regBits rs1 := by
    ext i hi
    simp [encodeI]
    grind
  rw [rs1Of, h, toFin_regBits]

@[simp] theorem fieldI_encodeI (op : BitVec 7) (f3 : BitVec 3) (rd rs1 : RegIdx) (imm : BitVec 12) :
    fieldI (encodeI op f3 rd rs1 imm) = imm := by
  ext i hi
  simp [fieldI, encodeI]
  grind

/-! Shift format. -/

@[simp] theorem opcodeOf_encodeShift (f3 : BitVec 3) (rd rs1 : RegIdx) (shamt : BitVec 5) :
    opcodeOf (encodeShift f3 rd rs1 shamt) = 0x13#7 := by
  ext i hi
  simp [opcodeOf, encodeShift]
  grind

@[simp] theorem funct7Of_encodeShift (f3 : BitVec 3) (rd rs1 : RegIdx) (shamt : BitVec 5) :
    funct7Of (encodeShift f3 rd rs1 shamt) = 0b0000000#7 := by
  ext i hi
  simp [funct7Of, encodeShift]
  grind

@[simp] theorem funct3Of_encodeShift (f3 : BitVec 3) (rd rs1 : RegIdx) (shamt : BitVec 5) :
    funct3Of (encodeShift f3 rd rs1 shamt) = f3 := by
  ext i hi
  simp [funct3Of, encodeShift]
  grind

@[simp] theorem rdOf_encodeShift (f3 : BitVec 3) (rd rs1 : RegIdx) (shamt : BitVec 5) :
    rdOf (encodeShift f3 rd rs1 shamt) = rd := by
  have h : (encodeShift f3 rd rs1 shamt).extractLsb' 7 5 = regBits rd := by
    ext i hi
    simp [encodeShift]
    grind
  rw [rdOf, h, toFin_regBits]

@[simp] theorem rs1Of_encodeShift (f3 : BitVec 3) (rd rs1 : RegIdx) (shamt : BitVec 5) :
    rs1Of (encodeShift f3 rd rs1 shamt) = rs1 := by
  have h : (encodeShift f3 rd rs1 shamt).extractLsb' 15 5 = regBits rs1 := by
    ext i hi
    simp [encodeShift]
    grind
  rw [rs1Of, h, toFin_regBits]

@[simp] theorem shamtOf_encodeShift (f3 : BitVec 3) (rd rs1 : RegIdx) (shamt : BitVec 5) :
    shamtOf (encodeShift f3 rd rs1 shamt) = shamt := by
  ext i hi
  simp [shamtOf, encodeShift]
  grind

/-! S format. -/

@[simp] theorem opcodeOf_encodeS (f3 : BitVec 3) (rs2 rs1 : RegIdx) (imm : BitVec 12) :
    opcodeOf (encodeS f3 rs2 rs1 imm) = 0x23#7 := by
  ext i hi
  simp [opcodeOf, encodeS]
  grind

@[simp] theorem funct3Of_encodeS (f3 : BitVec 3) (rs2 rs1 : RegIdx) (imm : BitVec 12) :
    funct3Of (encodeS f3 rs2 rs1 imm) = f3 := by
  ext i hi
  simp [funct3Of, encodeS]
  grind

@[simp] theorem rs1Of_encodeS (f3 : BitVec 3) (rs2 rs1 : RegIdx) (imm : BitVec 12) :
    rs1Of (encodeS f3 rs2 rs1 imm) = rs1 := by
  have h : (encodeS f3 rs2 rs1 imm).extractLsb' 15 5 = regBits rs1 := by
    ext i hi
    simp [encodeS]
    grind
  rw [rs1Of, h, toFin_regBits]

@[simp] theorem rs2Of_encodeS (f3 : BitVec 3) (rs2 rs1 : RegIdx) (imm : BitVec 12) :
    rs2Of (encodeS f3 rs2 rs1 imm) = rs2 := by
  have h : (encodeS f3 rs2 rs1 imm).extractLsb' 20 5 = regBits rs2 := by
    ext i hi
    simp [encodeS]
    grind
  rw [rs2Of, h, toFin_regBits]

/-- The two pieces of the S immediate in the word (R64, R82). -/
theorem pieces_encodeS (f3 : BitVec 3) (rs2 rs1 : RegIdx) (imm : BitVec 12) :
    (encodeS f3 rs2 rs1 imm).extractLsb' 25 7 = imm.extractLsb' 5 7 ∧
      (encodeS f3 rs2 rs1 imm).extractLsb' 7 5 = imm.extractLsb' 0 5 := by
  constructor <;> (ext i hi; simp [encodeS]; grind)

@[simp] theorem fieldS_encodeS (f3 : BitVec 3) (rs2 rs1 : RegIdx) (imm : BitVec 12) :
    fieldS (encodeS f3 rs2 rs1 imm) = imm := by
  rw [fieldS, (pieces_encodeS f3 rs2 rs1 imm).1, (pieces_encodeS f3 rs2 rs1 imm).2]
  ext i hi
  simp only [BitVec.getElem_append, BitVec.getElem_extractLsb']
  grind

/-! B format. -/

@[simp] theorem opcodeOf_encodeB (f3 : BitVec 3) (rs1 rs2 : RegIdx) (offset : BitVec 13) :
    opcodeOf (encodeB f3 rs1 rs2 offset) = 0x63#7 := by
  ext i hi
  simp [opcodeOf, encodeB]
  grind

@[simp] theorem funct3Of_encodeB (f3 : BitVec 3) (rs1 rs2 : RegIdx) (offset : BitVec 13) :
    funct3Of (encodeB f3 rs1 rs2 offset) = f3 := by
  ext i hi
  simp [funct3Of, encodeB]
  grind

@[simp] theorem rs1Of_encodeB (f3 : BitVec 3) (rs1 rs2 : RegIdx) (offset : BitVec 13) :
    rs1Of (encodeB f3 rs1 rs2 offset) = rs1 := by
  have h : (encodeB f3 rs1 rs2 offset).extractLsb' 15 5 = regBits rs1 := by
    ext i hi
    simp [encodeB]
    grind
  rw [rs1Of, h, toFin_regBits]

@[simp] theorem rs2Of_encodeB (f3 : BitVec 3) (rs1 rs2 : RegIdx) (offset : BitVec 13) :
    rs2Of (encodeB f3 rs1 rs2 offset) = rs2 := by
  have h : (encodeB f3 rs1 rs2 offset).extractLsb' 20 5 = regBits rs2 := by
    ext i hi
    simp [encodeB]
    grind
  rw [rs2Of, h, toFin_regBits]

/-- The four pieces of the B offset in the word (R65, R82). -/
theorem pieces_encodeB (f3 : BitVec 3) (rs1 rs2 : RegIdx) (offset : BitVec 13) :
    (encodeB f3 rs1 rs2 offset).extractLsb' 31 1 = offset.extractLsb' 12 1 ∧
      (encodeB f3 rs1 rs2 offset).extractLsb' 7 1 = offset.extractLsb' 11 1 ∧
      (encodeB f3 rs1 rs2 offset).extractLsb' 25 6 = offset.extractLsb' 5 6 ∧
      (encodeB f3 rs1 rs2 offset).extractLsb' 8 4 = offset.extractLsb' 1 4 := by
  refine ⟨?_, ?_, ?_, ?_⟩ <;> (ext i hi; simp [encodeB]; grind (ematch := 10))

theorem fieldB_encodeB (f3 : BitVec 3) (rs1 rs2 : RegIdx) {offset : BitVec 13}
    (h : evenOffset offset = true) : fieldB (encodeB f3 rs1 rs2 offset) = offset := by
  obtain ⟨h1, h2, h3, h4⟩ := pieces_encodeB f3 rs1 rs2 offset
  rw [fieldB, h1, h2, h3, h4]
  have h0 : offset[0] = false := by simpa [evenOffset, BitVec.getLsbD_eq_getElem] using h
  ext i hi
  simp only [BitVec.getElem_append, BitVec.getElem_extractLsb']
  grind

/-! U format. -/

@[simp] theorem opcodeOf_encodeU (rd : RegIdx) (imm20 : BitVec 20) :
    opcodeOf (encodeU rd imm20) = 0x37#7 := by
  ext i hi
  simp [opcodeOf, encodeU]
  grind

@[simp] theorem rdOf_encodeU (rd : RegIdx) (imm20 : BitVec 20) :
    rdOf (encodeU rd imm20) = rd := by
  have h : (encodeU rd imm20).extractLsb' 7 5 = regBits rd := by
    ext i hi
    simp [encodeU]
    grind
  rw [rdOf, h, toFin_regBits]

@[simp] theorem fieldU_encodeU (rd : RegIdx) (imm20 : BitVec 20) :
    fieldU (encodeU rd imm20) = imm20 := by
  ext i hi
  simp [fieldU, encodeU]
  grind

/-! J format. -/

@[simp] theorem opcodeOf_encodeJ (rd : RegIdx) (offset : BitVec 21) :
    opcodeOf (encodeJ rd offset) = 0x6F#7 := by
  ext i hi
  simp [opcodeOf, encodeJ]
  grind

@[simp] theorem rdOf_encodeJ (rd : RegIdx) (offset : BitVec 21) :
    rdOf (encodeJ rd offset) = rd := by
  have h : (encodeJ rd offset).extractLsb' 7 5 = regBits rd := by
    ext i hi
    simp [encodeJ]
    grind
  rw [rdOf, h, toFin_regBits]

/-- The four pieces of the J offset in the word (R67, R82). -/
theorem pieces_encodeJ (rd : RegIdx) (offset : BitVec 21) :
    (encodeJ rd offset).extractLsb' 31 1 = offset.extractLsb' 20 1 ∧
      (encodeJ rd offset).extractLsb' 12 8 = offset.extractLsb' 12 8 ∧
      (encodeJ rd offset).extractLsb' 20 1 = offset.extractLsb' 11 1 ∧
      (encodeJ rd offset).extractLsb' 21 10 = offset.extractLsb' 1 10 := by
  refine ⟨?_, ?_, ?_, ?_⟩ <;> (ext i hi; simp [encodeJ]; grind (ematch := 10))

theorem fieldJ_encodeJ (rd : RegIdx) {offset : BitVec 21} (h : evenOffset offset = true) :
    fieldJ (encodeJ rd offset) = offset := by
  obtain ⟨h1, h2, h3, h4⟩ := pieces_encodeJ rd offset
  rw [fieldJ, h1, h2, h3, h4]
  have h0 : offset[0] = false := by simpa [evenOffset, BitVec.getLsbD_eq_getElem] using h
  ext i hi
  simp only [BitVec.getElem_append, BitVec.getElem_extractLsb']
  grind

/-! Rows: what a masked word is, by its fields (R70 to R75). -/

theorem and_mask_opcode (w : Word) : w &&& 0x0000007F = 0#25 ++ opcodeOf w := by
  ext i hi
  interval_cases i <;> simp [opcodeOf] <;> grind (ematch := 10)

theorem and_mask_funct3 (w : Word) :
    w &&& 0x0000707F = 0#17 ++ funct3Of w ++ 0#5 ++ opcodeOf w := by
  ext i hi
  interval_cases i <;> simp [opcodeOf, funct3Of] <;> grind (ematch := 10)

theorem and_mask_funct7 (w : Word) :
    w &&& 0xFE00707F = funct7Of w ++ 0#10 ++ funct3Of w ++ 0#5 ++ opcodeOf w := by
  ext i hi
  interval_cases i <;> simp [opcodeOf, funct3Of, funct7Of] <;> grind (ematch := 10)

end Sys2Proof
end

