-- ==== Sys2Proof/Laws/Memory.lean ====
section
/-! SUPPORT. The laws of memory cells and byte strings: read after write, the canonical form, and
little-endian values. -/

namespace Sys2Proof.Machine

/-! One byte. -/

/-- An address below every listed one reads as an unlisted address does. -/
theorem Memory.read_of_lt {m : Memory} {a : ℕ} (h : ∀ c ∈ m, a < c.1) :
    m.read a = unlistedByte := by
  induction m with
  | nil => rfl
  | cons c m ih =>
    have := h c (by simp)
    rw [Memory.read, if_neg (by omega)]
    exact ih fun d hd => h d (by simp [hd])

theorem Memory.read_cons {m : Memory} {a : ℕ} {b : Byte} (h : ∀ c ∈ m, a < c.1) (x : ℕ) :
    (Memory.cons a b m).read x = if x = a then b else m.read x := by
  unfold Memory.cons
  by_cases hb : b = unlistedByte
  · subst hb
    by_cases hx : x = a
    · subst hx; simp [Memory.read_of_lt h]
    · simp [hx]
  · simp [hb, Memory.read]

theorem Memory.mem_cons {m : Memory} {a : ℕ} {b : Byte} {c : Host.Cell}
    (h : c ∈ Memory.cons a b m) : c = (a, b) ∧ b ≠ unlistedByte ∨ c ∈ m := by
  unfold Memory.cons at h
  split at h
  · exact .inr h
  · rcases List.mem_cons.1 h with rfl | h
    · exact .inl ⟨rfl, ‹_›⟩
    · exact .inr h

theorem Memory.cons_wf {m : Memory} {a : ℕ} {b : Byte} (hm : m.wf) (h : ∀ c ∈ m, a < c.1) :
    (Memory.cons a b m).wf := by
  unfold Memory.cons
  split
  · exact hm
  · refine ⟨List.pairwise_cons.2 ⟨h, hm.1⟩, fun c hc => ?_⟩
    rcases List.mem_cons.1 hc with rfl | hc
    · assumption
    · exact hm.2 c hc

/-- The entries of a written memory: the written one, or one that was there. -/
theorem Memory.mem_write {m : Memory} {a : ℕ} {b : Byte} {c : Host.Cell} (h : c ∈ m.write a b) :
    c.1 = a ∨ c ∈ m := by
  induction m with
  | nil => rcases Memory.mem_cons h with ⟨rfl, _⟩ | h <;> simp_all
  | cons d m ih =>
    rw [Memory.write] at h
    split at h
    · rcases Memory.mem_cons h with ⟨rfl, _⟩ | h <;> simp_all
    · split at h
      · rcases Memory.mem_cons h with ⟨rfl, _⟩ | h <;> simp_all
      · rcases List.mem_cons.1 h with rfl | h
        · simp
        · rcases ih h with h | h <;> simp [h]

theorem Memory.wf_tail {c : Host.Cell} {m : Memory} (h : Memory.wf (c :: m)) :
    m.wf ∧ ∀ d ∈ m, c.1 < d.1 :=
  ⟨⟨(List.pairwise_cons.1 h.1).2, fun d hd => h.2 d (by simp [hd])⟩, (List.pairwise_cons.1 h.1).1⟩

/-- A write keeps the canonical form. -/
theorem Memory.write_wf {m : Memory} (hm : m.wf) (a : ℕ) (b : Byte) : (m.write a b).wf := by
  induction m with
  | nil => exact Memory.cons_wf hm (by simp)
  | cons c m ih =>
    obtain ⟨ht, hlt⟩ := Memory.wf_tail hm
    rw [Memory.write]
    split
    · refine Memory.cons_wf hm fun d hd => ?_
      rcases List.mem_cons.1 hd with rfl | hd
      · assumption
      · have := hlt d hd; omega
    · split
      · refine Memory.cons_wf ht fun d hd => ?_
        have := hlt d hd; omega
      · refine ⟨List.pairwise_cons.2 ⟨fun d hd => ?_, (ih ht).1⟩, fun d hd => ?_⟩
        · rcases Memory.mem_write hd with h | h
          · omega
          · exact hlt d h
        · rcases List.mem_cons.1 hd with rfl | hd
          · exact hm.2 _ (by simp)
          · exact (ih ht).2 d hd

/-- Read after write: the written byte at its address, every other as before. -/
theorem Memory.read_write {m : Memory} (hm : m.wf) (a : ℕ) (b : Byte) (x : ℕ) :
    (m.write a b).read x = if x = a then b else m.read x := by
  induction m with
  | nil => rw [Memory.write, Memory.read_cons (by simp)]
  | cons c m ih =>
    obtain ⟨ht, hlt⟩ := Memory.wf_tail hm
    rw [Memory.write]
    split
    · rw [Memory.read_cons fun d hd => ?_]
      rcases List.mem_cons.1 hd with rfl | hd
      · assumption
      · have := hlt d hd; omega
    · split
      · rw [Memory.read_cons fun d hd => by have := hlt d hd; omega]
        by_cases hx : x = a <;> simp_all [Memory.read]
      · rw [Memory.read, ih ht, Memory.read]
        by_cases hx : x = c.1
        · simp [hx]; omega
        · simp [hx]

/-! Byte strings. -/

/-- Writing a string of bytes keeps the canonical form. -/
theorem Memory.writeBytes_wf (bytes : List Byte) {m : Memory} (hm : m.wf) (a : ℕ) :
    (m.writeBytes a bytes).wf := by
  induction bytes generalizing m a with
  | nil => exact hm
  | cons b bytes ih => exact ih (Memory.write_wf hm a b) (a + 1)

/-- The entries of a memory after a string was written: inside the string's range, or there before. -/
theorem Memory.mem_writeBytes (bytes : List Byte) {m : Memory} {a : ℕ} {c : Host.Cell}
    (h : c ∈ m.writeBytes a bytes) : (a ≤ c.1 ∧ c.1 < a + bytes.length) ∨ c ∈ m := by
  induction bytes generalizing m a with
  | nil => exact .inr h
  | cons b bytes ih =>
    rcases ih h with h | h
    · left; simp; omega
    · rcases Memory.mem_write h with h | h
      · left; simp; omega
      · exact .inr h

/-- Reading after a string was written: the string's bytes in its range, every other as before. -/
theorem Memory.read_writeBytes (bytes : List Byte) {m : Memory} (hm : m.wf) (a x : ℕ) :
    (m.writeBytes a bytes).read x =
      if a ≤ x ∧ x < a + bytes.length then bytes.getD (x - a) 0 else m.read x := by
  induction bytes generalizing m a with
  | nil =>
    rw [Memory.writeBytes, if_neg (by simp)]
  | cons b bytes ih =>
    rw [Memory.writeBytes, ih (Memory.write_wf hm a b), Memory.read_write hm]
    by_cases hx : x = a
    · subst hx
      simp
    · by_cases hr : a + 1 ≤ x ∧ x < a + 1 + bytes.length
      · have h1 : a ≤ x ∧ x < a + (b :: bytes).length := by simp; omega
        have h2 : x - a = (x - (a + 1)) + 1 := by omega
        rw [if_pos hr, if_pos h1, h2]
        simp
      · have h1 : ¬(a ≤ x ∧ x < a + (b :: bytes).length) := by simp; omega
        rw [if_neg hr, if_neg h1, if_neg hx]

theorem Memory.length_readBytes (m : Memory) (a n : ℕ) : (m.readBytes a n).length = n := by
  induction n generalizing a with
  | zero => rfl
  | succ n ih => simp [Memory.readBytes, ih]

/-- The bytes read depend only on the addresses read. -/
theorem Memory.readBytes_congr {m m' : Memory} {a n : ℕ}
    (h : ∀ x, a ≤ x → x < a + n → m.read x = m'.read x) : m.readBytes a n = m'.readBytes a n := by
  induction n generalizing a with
  | zero => rfl
  | succ n ih =>
    rw [Memory.readBytes, Memory.readBytes, h a (by omega) (by omega),
      ih fun x h1 h2 => h x (by omega) (by omega)]

/-! Little-endian values. -/

theorem length_littleEndianBytes (n v : ℕ) : (littleEndianBytes n v).length = n := by
  induction n generalizing v with
  | zero => rfl
  | succ n ih => simp [littleEndianBytes, ih]

theorem littleEndian_lt (bytes : List Byte) : littleEndian bytes < 256 ^ bytes.length := by
  induction bytes with
  | nil => simp [littleEndian]
  | cons b bytes ih =>
    have := b.isLt
    rw [littleEndian, List.length_cons, pow_succ]
    omega

/-- The value of the low `n` bytes of `v` is `v` modulo `256^n`. -/
theorem littleEndian_littleEndianBytes (n v : ℕ) :
    littleEndian (littleEndianBytes n v) = v % 256 ^ n := by
  induction n generalizing v with
  | zero => simp [littleEndianBytes, littleEndian, Nat.mod_one]
  | succ n ih =>
    rw [littleEndianBytes, littleEndian, ih, pow_succ', Nat.mod_mul]
    simp

/-- Byte `i` of the low bytes of `v` is `(v >> 8i)[7:0]` (spec/20_memory.md R36). -/
theorem getD_littleEndianBytes {n i : ℕ} (v : ℕ) (h : i < n) :
    (littleEndianBytes n v).getD i 0 = BitVec.ofNat 8 (v / 2 ^ (8 * i)) := by
  induction n generalizing v i with
  | zero => omega
  | succ n ih =>
    cases i with
    | zero => simp [littleEndianBytes]
    | succ i =>
      rw [littleEndianBytes, List.getD_cons_succ, ih (v / 256) (by omega), Nat.div_div_eq_div_mul]
      congr 2
      rw [show 8 * (i + 1) = 8 + 8 * i by ring, pow_add]; rfl

/-- Reading back what was written: the whole string. -/
theorem Memory.readBytes_writeBytes (bytes : List Byte) {m : Memory} (hm : m.wf) (a : ℕ) :
    (m.writeBytes a bytes).readBytes a bytes.length = bytes := by
  induction bytes generalizing m a with
  | nil => rfl
  | cons b bytes ih =>
    have hw := Memory.write_wf hm a b
    rw [List.length_cons, Memory.readBytes, Memory.writeBytes, ih hw, Memory.read_writeBytes _ hw,
      if_neg (by omega), Memory.read_write hm, if_pos rfl]

end Sys2Proof.Machine
end

