-- ==== Sys2Proof/Laws/State.lean ====
section
/-! SUPPORT. One lemma per field per update of the state, so that no later proof unfolds a record
update. -/

namespace Sys2Proof.Machine

@[simp] theorem resetWith_pc (c : Config) : (State.resetWith c).pc = 0 := rfl
@[simp] theorem resetWith_mem (c : Config) : (State.resetWith c).mem = [] := rfl
@[simp] theorem resetWith_halted (c : Config) : (State.resetWith c).halted = false := rfl
@[simp] theorem resetWith_status (c : Config) : (State.resetWith c).status = .running := rfl
@[simp] theorem resetWith_cfg (c : Config) : (State.resetWith c).cfg = c := rfl

@[simp] theorem complete_regs (s : State) (p : Word) : (s.complete p).regs = s.regs := rfl
@[simp] theorem complete_pc (s : State) (p : Word) : (s.complete p).pc = p := rfl
@[simp] theorem complete_mem (s : State) (p : Word) : (s.complete p).mem = s.mem := rfl
@[simp] theorem complete_halted (s : State) (p : Word) : (s.complete p).halted = s.halted := rfl
@[simp] theorem complete_status (s : State) (p : Word) :
    (s.complete p).status = if s.halted then .halted else s.status := rfl
@[simp] theorem complete_cfg (s : State) (p : Word) : (s.complete p).cfg = s.cfg := rfl

@[simp] theorem raiseFault_regs (s : State) (f : Fault) : (s.raiseFault f).regs = s.regs := rfl
@[simp] theorem raiseFault_pc (s : State) (f : Fault) : (s.raiseFault f).pc = s.pc := rfl
@[simp] theorem raiseFault_mem (s : State) (f : Fault) : (s.raiseFault f).mem = s.mem := rfl
@[simp] theorem raiseFault_halted (s : State) (f : Fault) : (s.raiseFault f).halted = s.halted := rfl
@[simp] theorem raiseFault_status (s : State) (f : Fault) : (s.raiseFault f).status = .faulted f := rfl
@[simp] theorem raiseFault_cfg (s : State) (f : Fault) : (s.raiseFault f).cfg = s.cfg := rfl

@[simp] theorem setHalted_regs (s : State) : s.setHalted.regs = s.regs := rfl
@[simp] theorem setHalted_pc (s : State) : s.setHalted.pc = s.pc := rfl
@[simp] theorem setHalted_mem (s : State) : s.setHalted.mem = s.mem := rfl
@[simp] theorem setHalted_halted (s : State) : s.setHalted.halted = true := rfl
@[simp] theorem setHalted_status (s : State) : s.setHalted.status = s.status := rfl
@[simp] theorem setHalted_cfg (s : State) : s.setHalted.cfg = s.cfg := rfl

@[simp] theorem setPc_regs (s : State) (v : Word) : (s.setPc v).regs = s.regs := rfl
@[simp] theorem setPc_pc (s : State) (v : Word) : (s.setPc v).pc = v := rfl
@[simp] theorem setPc_mem (s : State) (v : Word) : (s.setPc v).mem = s.mem := rfl
@[simp] theorem setPc_halted (s : State) (v : Word) : (s.setPc v).halted = s.halted := rfl
@[simp] theorem setPc_status (s : State) (v : Word) : (s.setPc v).status = s.status := rfl
@[simp] theorem setPc_cfg (s : State) (v : Word) : (s.setPc v).cfg = s.cfg := rfl

@[simp] theorem writeReg_pc (s : State) (i : RegIdx) (v : Word) : (s.writeReg i v).pc = s.pc := by
  unfold State.writeReg; split <;> rfl
@[simp] theorem writeReg_mem (s : State) (i : RegIdx) (v : Word) :
    (s.writeReg i v).mem = s.mem := by
  unfold State.writeReg; split <;> rfl
@[simp] theorem writeReg_halted (s : State) (i : RegIdx) (v : Word) :
    (s.writeReg i v).halted = s.halted := by
  unfold State.writeReg; split <;> rfl
@[simp] theorem writeReg_status (s : State) (i : RegIdx) (v : Word) :
    (s.writeReg i v).status = s.status := by
  unfold State.writeReg; split <;> rfl
@[simp] theorem writeReg_cfg (s : State) (i : RegIdx) (v : Word) :
    (s.writeReg i v).cfg = s.cfg := by
  unfold State.writeReg; split <;> rfl

@[simp] theorem finishWith_pc (s : State) (rd : RegIdx) (v : Word) :
    (s.finishWith rd v).pc = s.pcPlus4 := rfl
@[simp] theorem finishWith_mem (s : State) (rd : RegIdx) (v : Word) :
    (s.finishWith rd v).mem = s.mem := by simp [State.finishWith]
@[simp] theorem finishWith_halted (s : State) (rd : RegIdx) (v : Word) :
    (s.finishWith rd v).halted = s.halted := by simp [State.finishWith]
@[simp] theorem finishWith_status (s : State) (rd : RegIdx) (v : Word) :
    (s.finishWith rd v).status = if s.halted then .halted else s.status := by
  simp [State.finishWith]
@[simp] theorem finishWith_cfg (s : State) (rd : RegIdx) (v : Word) :
    (s.finishWith rd v).cfg = s.cfg := by simp [State.finishWith]

end Sys2Proof.Machine
end

