-- ==== Sys2Proof/Laws/Ops.lean ====
section
/-! SUPPORT. What each shared operation can do, said once: the provers cite these instead of unfolding
the operation. -/

namespace Sys2Proof.Machine

/-! General registers. -/

/-- Reading after a register write: the value at its index unless the write was discarded, every other
register as before. -/
theorem readReg_writeReg (s : State) (i j : RegIdx) (v : Word) :
    (s.writeReg i v).readReg j =
      if j = i ∧ s.isHardwired i = false then v else s.readReg j := by
  unfold State.writeReg State.readReg
  cases hi : s.isHardwired i with
  | true => simp
  | false =>
    have hcfg : ∀ k, State.isHardwired { s with regs := s.regs.set i v } k = s.isHardwired k :=
      fun _ => rfl
    by_cases hj : j = i
    · subst hj; simp [hcfg, hi]
    · have : (i : ℕ) ≠ (j : ℕ) := fun h => hj (Fin.ext h.symm)
      simp [hcfg, hj, this]

/-- The hard-wired register reads as 0 (spec/10_state.md R16). -/
theorem readReg_hardwired {s : State} {i : RegIdx} (h : s.isHardwired i = true) :
    s.readReg i = 0 := by simp [State.readReg, h]

theorem isHardwired_iff (s : State) (i : RegIdx) :
    s.isHardwired i = true ↔ s.cfg.x0Hardwired = true ∧ i = 0 := by
  simp [State.isHardwired]

/-- Reads of registers see only the register file and the policy. -/
theorem readReg_congr {s t : State} (hr : t.regs = s.regs) (hc : t.cfg = s.cfg) (i : RegIdx) :
    t.readReg i = s.readReg i := by
  simp [State.readReg, State.isHardwired, hr, hc]

@[simp] theorem readReg_complete (s : State) (p : Word) (i : RegIdx) :
    (s.complete p).readReg i = s.readReg i := rfl
@[simp] theorem readReg_raiseFault (s : State) (f : Fault) (i : RegIdx) :
    (s.raiseFault f).readReg i = s.readReg i := rfl
@[simp] theorem readReg_setHalted (s : State) (i : RegIdx) :
    s.setHalted.readReg i = s.readReg i := rfl
@[simp] theorem readReg_setPc (s : State) (v : Word) (i : RegIdx) :
    (s.setPc v).readReg i = s.readReg i := rfl

/-- Registers after an instruction that writes one. -/
theorem readReg_finishWith (s : State) (i j : RegIdx) (v : Word) :
    (s.finishWith i v).readReg j =
      if j = i ∧ s.isHardwired i = false then v else s.readReg j := by
  rw [State.finishWith, readReg_complete, readReg_writeReg]

/-! The memory interface. -/

/-- The bounds check is the integer comparison, which does not wrap (spec/20_memory.md R37). -/
theorem inBounds_iff (s : State) (addr n : Nat) :
    s.inBounds addr n = true ↔ addr + n ≤ s.cfg.memCapacity := by simp [State.inBounds]

/-- A read that passes the check answers the little-endian value of its bytes, and one that does not
raises OutOfBounds (spec/20_memory.md R35). -/
theorem memRead_eq (s : State) (addr : Word) (width : Width) (access : Access) :
    s.memRead addr width access =
      if addr.toNat + width.bytes ≤ s.cfg.memCapacity then
        .ok (BitVec.ofNat 32 (littleEndian (s.mem.readBytes addr.toNat width.bytes)))
      else .error (.outOfBounds addr width.bytes access) := by
  simp [State.memRead, State.inBounds]

theorem memRead_error {s : State} {addr : Word} {width : Width} {access : Access} {f : Fault}
    (h : s.memRead addr width access = .error f) :
    s.cfg.memCapacity < addr.toNat + width.bytes ∧ f = .outOfBounds addr width.bytes access := by
  rw [memRead_eq] at h
  split at h
  · cases h
  · cases h; exact ⟨by omega, rfl⟩

/-- A state with other memory. -/
theorem readReg_withMem (s : State) (m : Memory) (i : RegIdx) :
    State.readReg { s with mem := m } i = s.readReg i := rfl

/-- A write that passes the check changes the memory alone, and one that does not raises OutOfBounds
(spec/20_memory.md R36). -/
theorem memWrite_eq (s : State) (addr : Word) (width : Width) (v : Word) (access : Access) :
    s.memWrite addr width v access =
      if addr.toNat + width.bytes ≤ s.cfg.memCapacity then
        .ok { s with
          mem := s.mem.writeBytes addr.toNat (littleEndianBytes width.bytes v.toNat) }
      else .error (.outOfBounds addr width.bytes access) := by
  by_cases h : addr.toNat + width.bytes ≤ s.cfg.memCapacity <;>
    simp [State.memWrite, State.inBounds, h]

theorem memWrite_ok {s t : State} {addr : Word} {width : Width} {v : Word} {access : Access}
    (h : s.memWrite addr width v access = .ok t) :
    addr.toNat + width.bytes ≤ s.cfg.memCapacity ∧
      t = { s with
        mem := s.mem.writeBytes addr.toNat (littleEndianBytes width.bytes v.toNat) } := by
  rw [memWrite_eq] at h
  split at h
  · cases h; exact ⟨‹_›, rfl⟩
  · cases h

theorem memWrite_error {s : State} {addr : Word} {width : Width} {v : Word} {access : Access}
    {f : Fault} (h : s.memWrite addr width v access = .error f) :
    s.cfg.memCapacity < addr.toNat + width.bytes ∧ f = .outOfBounds addr width.bytes access := by
  rw [memWrite_eq] at h
  split at h
  · cases h
  · cases h; exact ⟨by omega, rfl⟩

/-- A block that fits changes the memory alone, and one that does not is refused whole
(spec/20_memory.md R38). -/
theorem loadBlock_eq (s : State) (base : Word) (bytes : List Byte) :
    s.loadBlock base bytes =
      if base.toNat + bytes.length ≤ s.cfg.memCapacity then
        .ok { s with mem := s.mem.writeBytes base.toNat bytes }
      else .error (.memoryOverflow base.toNat bytes.length) := by
  by_cases h : base.toNat + bytes.length ≤ s.cfg.memCapacity <;>
    simp [State.loadBlock, State.inBounds, h]

/-! The end of an instruction, by what `exec` answers. -/

/-- Every instruction answers a next state: there is no instruction the model stops on. -/
theorem exec_next (i : Instr) (s : State) : ∃ t, exec i s = .next t := by
  cases i <;> try exact ⟨_, rfl⟩
  case lw rd rs1 imm =>
    simp only [exec, execLw]
    cases s.memRead (effectiveAddress s rs1 imm) .word .load <;> exact ⟨_, rfl⟩
  case sw rs2 rs1 imm =>
    simp only [exec, execSw]
    cases s.memWrite (effectiveAddress s rs1 imm) .word (s.readReg rs2) .store <;> exact ⟨_, rfl⟩

/-- LW, said once: the fault with nothing else changed, or the value of the four bytes in `x[rd]`. -/
theorem execLw_cases (rd rs1 : RegIdx) (imm : BitVec 12) (s : State) :
    (s.cfg.memCapacity < (effectiveAddress s rs1 imm).toNat + 4 ∧
      exec (.lw rd rs1 imm) s =
        .next (s.raiseFault (.outOfBounds (effectiveAddress s rs1 imm) 4 .load))) ∨
    ((effectiveAddress s rs1 imm).toNat + 4 ≤ s.cfg.memCapacity ∧
      exec (.lw rd rs1 imm) s = .next (s.finishWith rd (BitVec.ofNat 32
        (littleEndian (s.mem.readBytes (effectiveAddress s rs1 imm).toNat 4))))) := by
  rw [exec, execLw, memRead_eq]
  by_cases h : (effectiveAddress s rs1 imm).toNat + Width.word.bytes ≤ s.cfg.memCapacity
  · rw [if_pos h]; exact .inr ⟨h, rfl⟩
  · rw [if_neg h]; exact .inl ⟨Nat.lt_of_not_le h, rfl⟩

/-- SW, said once: the fault with nothing else changed, or the four bytes of `x[rs2]` stored. -/
theorem execSw_cases (rs2 rs1 : RegIdx) (imm : BitVec 12) (s : State) :
    (s.cfg.memCapacity < (effectiveAddress s rs1 imm).toNat + 4 ∧
      exec (.sw rs2 rs1 imm) s =
        .next (s.raiseFault (.outOfBounds (effectiveAddress s rs1 imm) 4 .store))) ∨
    ((effectiveAddress s rs1 imm).toNat + 4 ≤ s.cfg.memCapacity ∧
      exec (.sw rs2 rs1 imm) s =
        .next (State.complete
          { s with
            mem := s.mem.writeBytes (effectiveAddress s rs1 imm).toNat
              (littleEndianBytes 4 (s.readReg rs2).toNat) }
          s.pcPlus4)) := by
  rw [exec, execSw, memWrite_eq]
  by_cases h : (effectiveAddress s rs1 imm).toNat + Width.word.bytes ≤ s.cfg.memCapacity
  · rw [if_pos h]; exact .inr ⟨h, rfl⟩
  · rw [if_neg h]; exact .inl ⟨Nat.lt_of_not_le h, rfl⟩

/-! The step. -/

/-- What a running core's step does: the instruction at the pc, or the fault that the fetch or the
dispatch raised, taken. -/
theorem step_running {s : State} (h : s.status = .running) :
    (∃ i, s.fetchInstr = .ok i ∧ step s = exec i s) ∨
      ∃ f, s.fetchInstr = .error f ∧ step s = .next (s.raiseFault f) := by
  simp only [step, h]
  cases hi : s.fetchInstr with
  | ok i => exact .inl ⟨i, rfl, rfl⟩
  | error f => exact .inr ⟨f, rfl, rfl⟩

/-- What the fetch and the dispatch can answer (spec/60_exceptions.md R142). -/
theorem fetchInstr_cases (s : State) :
    (s.cfg.memCapacity < s.pc.toNat + 4 ∧
      s.fetchInstr = .error (.outOfBounds s.pc 4 .fetch)) ∨
    (s.pc.toNat + 4 ≤ s.cfg.memCapacity ∧ ∃ w, s.fetchWord = .ok w ∧
      ((∃ e, decode w = .error e ∧ s.fetchInstr = .error (.decodeError (opcodeOf w))) ∨
        ∃ i, decode w = .ok i ∧ s.fetchInstr = .ok i)) := by
  simp only [State.fetchInstr, State.fetchWord, memRead_eq]
  by_cases h : s.pc.toNat + Width.word.bytes ≤ s.cfg.memCapacity
  · rw [if_pos h]
    refine .inr ⟨h, _, rfl, ?_⟩
    simp only
    cases hd : decode _ with
    | ok i => exact .inr ⟨i, rfl, rfl⟩
    | error e => exact .inl ⟨e, rfl, rfl⟩
  · rw [if_neg h]; exact .inl ⟨Nat.lt_of_not_le h, rfl⟩

end Sys2Proof.Machine
end

