-- ==== Sys2Proof/Laws/Loader.lean ====
section
/-! SUPPORT. What each operation of the object loader can do, said once. -/

namespace Sys2Proof.Machine

theorem fileHas_iff (file : List Byte) (offset n : Nat) :
    fileHas file offset n = true ↔ offset + n ≤ file.length := by simp [fileHas]

/-- A sequence of two loader operations succeeds only through its first. -/
theorem exceptBind_ok {α β : Type} {x : Except HostError α} {f : α → Except HostError β} {b : β}
    (h : (x >>= f) = .ok b) : ∃ a, x = .ok a ∧ f a = .ok b := by
  cases x with
  | ok a => exact ⟨a, rfl, h⟩
  | error e => cases h

/-- A field that is read lies in the file and has the width of its bytes. -/
theorem fileField_ok {file : List Byte} {offset n v : Nat} (h : fileField file offset n = .ok v) :
    offset + n ≤ file.length ∧ v < 256 ^ n := by
  unfold fileField at h
  split at h
  · rename_i hb
    cases h
    refine ⟨(fileHas_iff _ _ _).1 hb, lt_of_lt_of_le (littleEndian_lt _) ?_⟩
    exact Nat.pow_le_pow_right (by decide) (by simp)
  · cases h

/-- A header that is read stands in a file of at least 52 bytes (spec/70_reset_and_hazards.md R164). -/
theorem readElfHeader_ok {file : List Byte} {h : ElfHeader} (e : readElfHeader file = .ok h) :
    52 ≤ file.length ∧ h.entry < 2 ^ 32 := by
  unfold readElfHeader at e
  split at e
  · rename_i hb
    rw [fileHas_iff] at hb
    obtain ⟨entry, he, e⟩ := exceptBind_ok e
    obtain ⟨_, _, e⟩ := exceptBind_ok e
    obtain ⟨_, _, e⟩ := exceptBind_ok e
    obtain ⟨_, _, e⟩ := exceptBind_ok e
    cases e
    exact ⟨by simpa [elfHeaderLength] using hb, (fileField_ok he).2⟩
  · cases e

/-- An entry that is read has its virtual address in 32 bits. -/
theorem readProgramHeader_ok {file : List Byte} {offset : Nat} {p : ProgramHeader}
    (e : readProgramHeader file offset = .ok p) :
    offset + 24 ≤ file.length ∧ p.virtualAddress < 2 ^ 32 := by
  unfold readProgramHeader at e
  obtain ⟨_, _, e⟩ := exceptBind_ok e
  obtain ⟨_, _, e⟩ := exceptBind_ok e
  obtain ⟨_, hv, e⟩ := exceptBind_ok e
  obtain ⟨_, _, e⟩ := exceptBind_ok e
  obtain ⟨_, hm, e⟩ := exceptBind_ok e
  cases e
  exact ⟨(fileField_ok hm).1, (fileField_ok hv).2⟩

/-- An entry that is not loadable is discarded. -/
theorem loadSegment_discarded {file : List Byte} {p : ProgramHeader} (s : State)
    (h : p.segmentType ≠ 1) : loadSegment file p s = .ok s := by
  rw [loadSegment, if_neg (show ¬p.segmentType = loadableType from h)]

/-- A loadable segment: MemoryOverflow if it does not fit, an error if the file is too short for it, else
one LoadBlock of its bytes (spec/70_reset_and_hazards.md R165 to R167). -/
theorem loadSegment_loadable {file : List Byte} {p : ProgramHeader} (s : State)
    (h : p.segmentType = 1) :
    loadSegment file p s =
      if p.virtualAddress + p.fileSize ≤ s.cfg.memCapacity then
        if p.fileOffset + p.fileSize ≤ file.length then
          s.loadBlock (BitVec.ofNat 32 p.virtualAddress)
            ((file.drop p.fileOffset).take p.fileSize)
        else .error .truncatedFile
      else .error (.memoryOverflow p.virtualAddress p.fileSize) := by
  rw [loadSegment, if_pos (show p.segmentType = loadableType from h)]
  simp only [inBounds_iff, fileHas_iff]

/-- The entries of the table, one after another. -/
theorem loadSegments_succ {file : List Byte} {entrySize offset n : Nat} {p : ProgramHeader}
    (s : State) (h : readProgramHeader file offset = .ok p) :
    loadSegments file entrySize offset (n + 1) s =
      match loadSegment file p s with
      | .ok t => loadSegments file entrySize (offset + entrySize) n t
      | .error e => .error e := by
  rw [loadSegments, h]
  cases hs : loadSegment file p s <;> simp [bind, Except.bind, hs]

theorem loadBlock_cfg {s t : State} {base : Word} {bytes : List Byte}
    (h : s.loadBlock base bytes = .ok t) : t.cfg = s.cfg := by
  rw [loadBlock_eq] at h
  split at h <;> cases h
  rfl

theorem loadSegment_cfg {file : List Byte} {p : ProgramHeader} {s t : State}
    (h : loadSegment file p s = .ok t) : t.cfg = s.cfg := by
  by_cases hl : p.segmentType = 1
  · rw [loadSegment_loadable s hl] at h
    split at h
    · split at h
      · exact loadBlock_cfg h
      · cases h
    · cases h
  · rw [loadSegment_discarded s hl] at h; cases h; rfl

/-- The loader on a file with the magic, a header and a whole table. -/
theorem launchElf_eq {c : Config} {file : List Byte} {h : ElfHeader}
    (hm : file.take 4 = [0x7F, 0x45, 0x4C, 0x46]) (hh : readElfHeader file = .ok h)
    (hf : h.tableOffset + h.count * h.entrySize ≤ file.length) :
    launchElf c file =
      match loadSegments file h.entrySize h.tableOffset h.count (State.resetWith c) with
      | .ok t => .ok (t.setPc (BitVec.ofNat 32 h.entry))
      | .error e => .error e := by
  have hf' : h.tableFits file = true := (fileHas_iff _ _ _).2 hf
  rw [launchElf, loadElf, if_pos (show file.take 4 = elfMagic from hm), hh]
  simp only [hf', if_true]
  cases loadSegments file h.entrySize h.tableOffset h.count (State.resetWith c) <;> rfl

/-- A file that loads has the magic, a header and a whole table. -/
theorem launchElf_ok {c : Config} {file : List Byte} {s : State} (e : launchElf c file = .ok s) :
    file.take 4 = [0x7F, 0x45, 0x4C, 0x46] ∧ ∃ h, readElfHeader file = .ok h ∧
      h.tableOffset + h.count * h.entrySize ≤ file.length := by
  rw [launchElf, loadElf] at e
  by_cases hm : file.take 4 = elfMagic
  · rw [if_pos hm] at e
    refine ⟨hm, ?_⟩
    cases hh : readElfHeader file with
    | error _ => rw [hh] at e; cases e
    | ok h =>
      refine ⟨h, rfl, ?_⟩
      rw [hh] at e
      by_cases hf : h.tableFits file = true
      · exact (fileHas_iff _ _ _).1 hf
      · simp only [hf] at e; cases e
  · rw [if_neg hm] at e; cases e

end Sys2Proof.Machine
end

