-- ==== Sys2Proof/Laws/Notation.lean ====
section
/-! SUPPORT. The spec's integer notation against the bit-vector operations of the model. -/

namespace Sys2Proof

theorem u32_eq_ofInt (n : ℤ) : u32 n = BitVec.ofInt 32 n := by
  apply BitVec.eq_of_toNat_eq
  simp only [u32, BitVec.toNat_ofNat, BitVec.toNat_ofInt]
  omega

theorem u32_natCast (n : ℕ) : u32 n = BitVec.ofNat 32 n := by
  rw [u32_eq_ofInt]; exact BitVec.ofInt_natCast _ _

@[simp] theorem u32_toNat (v : Word) : u32 v.toNat = v := by simp [u32_natCast]

theorem u32_add (a b : ℤ) : u32 (a + b) = u32 a + u32 b := by
  simp only [u32_eq_ofInt, BitVec.ofInt_add]

theorem u32_toNat_add_toNat (a b : Word) : u32 (a.toNat + b.toNat) = a + b := by
  rw [u32_add, u32_toNat, u32_toNat]

theorem u32_toNat_add_four (a : Word) : u32 (a.toNat + 4) = a + 4 := by
  rw [u32_add, u32_toNat]; rfl

theorem u32_toNat_sub_toNat (a b : Word) : u32 ((a.toNat : ℤ) - b.toNat) = a - b := by
  rw [sub_eq_add_neg, u32_add, u32_toNat, u32_eq_ofInt, BitVec.ofInt_neg, ← u32_eq_ofInt,
    u32_toNat, BitVec.sub_eq_add_neg]

theorem signed_eq_toInt (v : Word) : signed v = v.toInt := by
  rw [signed, BitVec.toInt_eq_toNat_cond]
  split <;> split <;> omega

/-- `sext_N` of a field's value is the field read as two's complement. -/
theorem sext_toNat {n : ℕ} (h : 0 < n) (f : BitVec n) : sext n f.toNat = f.toInt := by
  obtain ⟨m, rfl⟩ : ∃ m, n = m + 1 := ⟨n - 1, by omega⟩
  rw [sext, BitVec.toInt_eq_toNat_cond, Nat.add_sub_cancel]
  have : 2 ^ (m + 1) = 2 * 2 ^ m := by ring
  split <;> split <;> first | omega | (push_cast; rfl)

theorem u32_toInt {n : ℕ} (f : BitVec n) : u32 f.toInt = f.signExtend 32 := by
  rw [u32_eq_ofInt]; rfl

/-- The 32-bit value of a sign-extended field. -/
theorem u32_sext {n : ℕ} (h : 0 < n) (f : BitVec n) : u32 (sext n f.toNat) = f.signExtend 32 := by
  rw [sext_toNat h, u32_toInt]

/-- `u32(base + sext_N(field))`, the form of effective addresses and of branch and jump targets. -/
theorem u32_toNat_add_sext {n : ℕ} (h : 0 < n) (a : Word) (f : BitVec n) :
    u32 (a.toNat + sext n f.toNat) = a + f.signExtend 32 := by
  rw [u32_add, u32_toNat, u32_sext h]

theorem slice_eq_toNat (v : Word) (hi lo : ℕ) :
    slice v hi lo = (v.extractLsb' lo (hi + 1 - lo)).toNat := by
  rw [slice, BitVec.extractLsb'_toNat, Nat.shiftRight_eq_div_pow]

theorem slice_lt (v : Word) (hi lo : ℕ) : slice v hi lo < 2 ^ (hi + 1 - lo) :=
  Nat.mod_lt _ (by positivity)

theorem reg5_eq_regBits (r : RegIdx) : reg5 r = regBits r := by
  apply BitVec.eq_of_toNat_eq
  simp [reg5, regBits]

namespace Machine

theorem littleEndian_four (b0 b1 b2 b3 : Byte) :
    BitVec.ofNat 32 (littleEndian [b0, b1, b2, b3]) = b3 ++ b2 ++ b1 ++ b0 := by
  apply BitVec.eq_of_toNat_eq
  have h0 := b0.isLt
  have h1 := b1.isLt
  have h2 := b2.isLt
  have h3 := b3.isLt
  have key : ∀ {n} (x : BitVec n) (y : Byte), (x ++ y).toNat = x.toNat * 256 + y.toNat := by
    intro n x y
    rw [BitVec.toNat_append, Nat.shiftLeft_eq, Nat.mul_comm,
      ← Nat.two_pow_add_eq_or_of_lt (by exact y.isLt), Nat.mul_comm]
  rw [key, key, key]
  simp only [littleEndian, BitVec.toNat_ofNat]
  omega

/-- The word at an address, as the fetch and LW read it. -/
theorem wordAt_eq (s : State) (a : ℕ) :
    wordAt s a = BitVec.ofNat 32 (littleEndian (s.mem.readBytes a 4)) := by
  rw [wordAt, show ((s.mem.read a).toNat + 2 ^ 8 * (s.mem.read (a + 1)).toNat +
    2 ^ 16 * (s.mem.read (a + 2)).toNat + 2 ^ 24 * (s.mem.read (a + 3)).toNat : ℤ) =
    ((littleEndian (s.mem.readBytes a 4) : ℕ) : ℤ) by
      simp only [Memory.readBytes, littleEndian]; push_cast; ring, u32_natCast]

theorem wordAt_eq_append (s : State) (a : ℕ) :
    wordAt s a = s.mem.read (a + 3) ++ s.mem.read (a + 2) ++ s.mem.read (a + 1) ++
      s.mem.read a := by
  rw [wordAt_eq, ← littleEndian_four]; rfl

/-- The fetch inside memory reads the word at the pc (spec/40_instruction_cycle.md R86). -/
theorem fetchWord_eq {s : State} (h : s.pc.toNat + 4 ≤ s.cfg.memCapacity) :
    s.fetchWord = .ok (wordAt s s.pc.toNat) := by
  have h' : s.pc.toNat + Width.word.bytes ≤ s.cfg.memCapacity := h
  rw [State.fetchWord, memRead_eq, if_pos h', wordAt_eq, Width.bytes]

/-- What the fetch and the dispatch make of a word that decodes. -/
theorem fetchInstr_of_ok {s : State} {i : Instr} (h : s.pc.toNat + 4 ≤ s.cfg.memCapacity)
    (hd : decode (wordAt s s.pc.toNat) = .ok i) : s.fetchInstr = .ok i := by
  simp only [State.fetchInstr, fetchWord_eq h, hd]

/-- What the fetch and the dispatch make of a word that has no entry. -/
theorem fetchInstr_of_error {s : State} {e : DecodeReject}
    (h : s.pc.toNat + 4 ≤ s.cfg.memCapacity)
    (hd : decode (wordAt s s.pc.toNat) = .error e) :
    s.fetchInstr = .error (.decodeError (opcodeOf (wordAt s s.pc.toNat))) := by
  simp only [State.fetchInstr, fetchWord_eq h, hd]

end Machine

end Sys2Proof
end

