-- ==== Sys2Proof/Laws/PerInstr.lean ====
section
/-! SUPPORT. The family of statements made per instruction: the encoded word of each instruction matches
its own row of the opcode map (spec/30_encoding.md R70 to R75). -/

namespace Sys2Proof.Laws.EncodesToItsRow

/-- The word of the instruction matches its row: `word & mask = match` (R70). -/
def Statement (i : Instr) : Prop := (rowOf i).matches (encode i)

theorem add (rd rs1 rs2 : RegIdx) : Statement (.add rd rs1 rs2) :=
  (and_mask_funct7 _).trans (by simp [encode, rowOf])

theorem sub (rd rs1 rs2 : RegIdx) : Statement (.sub rd rs1 rs2) :=
  (and_mask_funct7 _).trans (by simp [encode, rowOf])

theorem sll (rd rs1 rs2 : RegIdx) : Statement (.sll rd rs1 rs2) :=
  (and_mask_funct7 _).trans (by simp [encode, rowOf])

theorem slt (rd rs1 rs2 : RegIdx) : Statement (.slt rd rs1 rs2) :=
  (and_mask_funct7 _).trans (by simp [encode, rowOf])

theorem xor (rd rs1 rs2 : RegIdx) : Statement (.xor rd rs1 rs2) :=
  (and_mask_funct7 _).trans (by simp [encode, rowOf])

theorem srl (rd rs1 rs2 : RegIdx) : Statement (.srl rd rs1 rs2) :=
  (and_mask_funct7 _).trans (by simp [encode, rowOf])

theorem or (rd rs1 rs2 : RegIdx) : Statement (.or rd rs1 rs2) :=
  (and_mask_funct7 _).trans (by simp [encode, rowOf])

theorem and (rd rs1 rs2 : RegIdx) : Statement (.and rd rs1 rs2) :=
  (and_mask_funct7 _).trans (by simp [encode, rowOf])

theorem addi (rd rs1 : RegIdx) (imm : BitVec 12) : Statement (.addi rd rs1 imm) :=
  (and_mask_funct3 _).trans (by simp [encode, rowOf])

theorem slli (rd rs1 : RegIdx) (shamt : BitVec 5) : Statement (.slli rd rs1 shamt) :=
  (and_mask_funct7 _).trans (by simp [encode, rowOf])

theorem slti (rd rs1 : RegIdx) (imm : BitVec 12) : Statement (.slti rd rs1 imm) :=
  (and_mask_funct3 _).trans (by simp [encode, rowOf])

theorem xori (rd rs1 : RegIdx) (imm : BitVec 12) : Statement (.xori rd rs1 imm) :=
  (and_mask_funct3 _).trans (by simp [encode, rowOf])

theorem srli (rd rs1 : RegIdx) (shamt : BitVec 5) : Statement (.srli rd rs1 shamt) :=
  (and_mask_funct7 _).trans (by simp [encode, rowOf])

theorem ori (rd rs1 : RegIdx) (imm : BitVec 12) : Statement (.ori rd rs1 imm) :=
  (and_mask_funct3 _).trans (by simp [encode, rowOf])

theorem andi (rd rs1 : RegIdx) (imm : BitVec 12) : Statement (.andi rd rs1 imm) :=
  (and_mask_funct3 _).trans (by simp [encode, rowOf])

theorem lw (rd rs1 : RegIdx) (imm : BitVec 12) : Statement (.lw rd rs1 imm) :=
  (and_mask_funct3 _).trans (by simp [encode, rowOf])

theorem sw (rs2 rs1 : RegIdx) (imm : BitVec 12) : Statement (.sw rs2 rs1 imm) :=
  (and_mask_funct3 _).trans (by simp [encode, rowOf])

theorem beq (rs1 rs2 : RegIdx) (offset : BitVec 13) : Statement (.beq rs1 rs2 offset) :=
  (and_mask_funct3 _).trans (by simp [encode, rowOf])

theorem bne (rs1 rs2 : RegIdx) (offset : BitVec 13) : Statement (.bne rs1 rs2 offset) :=
  (and_mask_funct3 _).trans (by simp [encode, rowOf])

theorem lui (rd : RegIdx) (imm20 : BitVec 20) : Statement (.lui rd imm20) :=
  (and_mask_opcode _).trans (by simp [encode, rowOf])

theorem jal (rd : RegIdx) (offset : BitVec 21) : Statement (.jal rd offset) :=
  (and_mask_opcode _).trans (by simp [encode, rowOf])

theorem ecall : Statement (.ecall) :=
  rfl

end Sys2Proof.Laws.EncodesToItsRow
end

