-- ==== Sys2Proof/Laws/Session.lean ====
section
/-! SUPPORT. What the host's operations and the core's steps do to a session, said once. -/

namespace Sys2Proof.Machine

/-- An operation outside its phases is refused and changes nothing
(spec/93_implementation_defined.md U13). -/
theorem request_refused {h : Session} {c : Command} (hp : h.phase ∉ c.phases) :
    h.request c = (.error .notAllowed, h) := if_neg hp

/-- An operation in its phases is performed (spec/70_reset_and_hazards.md R160). -/
theorem request_open {h : Session} {c : Command} (hp : h.phase ∈ c.phases) :
    h.request c = h.perform c := if_pos hp

/-- No operation is open to the host during a run. -/
theorem inRun_not_mem_phases (c : Command) : Phase.inRun ∉ c.phases := by
  cases c <;> simp [Command.phases]

/-- Reset and the reads are open in every phase but the run. -/
theorem mem_outside_run {p : Phase} (hp : p ≠ .inRun) :
    p ∈ ([.beforeRun, .loadFailed, .afterRun] : List Phase) := by
  cases p <;> simp_all

@[simp] theorem tick_beforeRun (s : State) :
    Session.tick { phase := .beforeRun, core := s } = { phase := .beforeRun, core := s } := rfl
@[simp] theorem tick_loadFailed (s : State) :
    Session.tick { phase := .loadFailed, core := s } = { phase := .loadFailed, core := s } := rfl
@[simp] theorem tick_afterRun (s : State) :
    Session.tick { phase := .afterRun, core := s } = { phase := .afterRun, core := s } := rfl
@[simp] theorem tick_inRun (s : State) :
    Session.tick { phase := .inRun, core := s } =
      { phase := if s.advance.status = .running then .inRun else .afterRun
        core := s.advance } := rfl

/-- Operations asked for one after another. -/
theorem issue_append (h : Session) (cs ds : List Command) :
    h.issue (cs ++ ds) = (h.issue cs).issue ds := by
  induction cs generalizing h with
  | nil => rfl
  | cons c cs ih => exact ih _

end Sys2Proof.Machine
end

