-- ==== Sys2Proof/Tests/Slice0.lean ====
section
/-! SUPPORT. Tests of the model, each on one word or one step. Expected values are those of
spec/95_test_vectors.md and of the examples in the rules of spec/41 to spec/47, never the model's own.
The theorems named `witness_<Name>` show a state and operands that meet the hypotheses of the statement
`Obligations.<Name>`, clause by clause where it has several. -/

namespace Sys2Proof.Tests

open Sys2Proof.Machine

/-! Small states and what is looked at in a result. -/

/-- A running core with x1, x2 and the pc set and nothing else. -/
def core (x1 x2 : Word) (pc : Word := 0x1000) (cfg : Config := Config.default) : State :=
  { State.resetWith cfg with regs := ((Vector.replicate 32 0).set 1 x1).set 2 x2, pc := pc }

/-- The core with bytes in memory. -/
def withBytes (s : State) (a : Nat) (bytes : List Byte) : State :=
  { s with mem := s.mem.writeBytes a bytes }

/-- The default parameters with unsigned set-less-than. -/
def unsignedSlt : Config := { Config.default with sltSigned := false }

/-- The default parameters with register 0 hard-wired. -/
def hardwired : Config := { Config.default with x0Hardwired := true }

/-- The state an outcome goes on to. -/
def after : Host.Outcome State Fault Refusal → Option State
  | .next t => some t
  | .fault _ => none
  | .refused _ => none

/-- A register and the pc after an outcome. -/
def result (i : RegIdx) (o : Host.Outcome State Fault Refusal) : Option (Word × Word) :=
  (after o).map fun t => (t.readReg i, t.pc)

/-- Four bytes of memory after an outcome. -/
def stored (a : Nat) (o : Host.Outcome State Fault Refusal) : Option (List Byte) :=
  (after o).map fun t => t.mem.readBytes a 4

/-- The status and the pc after an outcome. -/
def ended (o : Host.Outcome State Fault Refusal) : Option (Status × Word) :=
  (after o).map fun t => (t.status, t.pc)

/-- One step with the word where it is fetched. -/
def stepOn (s : State) (w : Nat) : Host.Outcome State Fault Refusal := step (s.withFetchWord 32 w)

/-! Well-formedness: the one thing an operand can have wrong is an odd offset (R82). -/

theorem test_beq_odd_offset_ill_formed : Instr.wellFormed (.beq 1 2 3) = false := by decide
theorem test_bne_odd_offset_ill_formed : Instr.wellFormed (.bne 1 2 0x1FFF) = false := by decide
theorem test_jal_odd_offset_ill_formed : Instr.wellFormed (.jal 1 0x100001) = false := by decide
theorem test_even_offsets_well_formed :
    Instr.wellFormed (.beq 1 2 2) = true ∧ Instr.wellFormed (.bne 1 2 0x1000) = true ∧
      Instr.wellFormed (.jal 0 0x100000) = true := by decide

/-! Decoding of words written out field by field from the encodings of R99 to R131. -/

theorem test_decode_add : decode (0b0000000#7 ++ 0b00010#5 ++ 0b00001#5 ++ 0b000#3 ++ 0b00011#5 ++
    0b0110011#7) = .ok (.add 3 1 2) := by decide
theorem test_decode_sub : decode (0b0100000#7 ++ 0b00010#5 ++ 0b00001#5 ++ 0b000#3 ++ 0b00011#5 ++
    0b0110011#7) = .ok (.sub 3 1 2) := by decide
theorem test_decode_sll : decode (0b0000000#7 ++ 0b00010#5 ++ 0b00001#5 ++ 0b001#3 ++ 0b00011#5 ++
    0b0110011#7) = .ok (.sll 3 1 2) := by decide
theorem test_decode_slt : decode (0b0000000#7 ++ 0b00010#5 ++ 0b00001#5 ++ 0b010#3 ++ 0b00011#5 ++
    0b0110011#7) = .ok (.slt 3 1 2) := by decide
theorem test_decode_xor : decode (0b0000000#7 ++ 0b00010#5 ++ 0b00001#5 ++ 0b100#3 ++ 0b00011#5 ++
    0b0110011#7) = .ok (.xor 3 1 2) := by decide
theorem test_decode_srl : decode (0b0000000#7 ++ 0b00010#5 ++ 0b00001#5 ++ 0b101#3 ++ 0b00011#5 ++
    0b0110011#7) = .ok (.srl 3 1 2) := by decide
theorem test_decode_or : decode (0b0000000#7 ++ 0b00010#5 ++ 0b00001#5 ++ 0b110#3 ++ 0b00011#5 ++
    0b0110011#7) = .ok (.or 3 1 2) := by decide
theorem test_decode_and : decode (0b0000000#7 ++ 0b00010#5 ++ 0b00001#5 ++ 0b111#3 ++ 0b00011#5 ++
    0b0110011#7) = .ok (.and 3 1 2) := by decide
theorem test_decode_addi : decode (0b111011101111#12 ++ 0b00110#5 ++ 0b000#3 ++ 0b00110#5 ++
    0b0010011#7) = .ok (.addi 6 6 (-273)) := by decide
theorem test_decode_slli : decode (0b0000000#7 ++ 0b01000#5 ++ 0b00001#5 ++ 0b001#3 ++ 0b00011#5 ++
    0b0010011#7) = .ok (.slli 3 1 8) := by decide
theorem test_decode_slti : decode (0b100000000000#12 ++ 0b00001#5 ++ 0b010#3 ++ 0b00011#5 ++
    0b0010011#7) = .ok (.slti 3 1 (-2048)) := by decide
theorem test_decode_xori : decode (0b000000001111#12 ++ 0b00001#5 ++ 0b100#3 ++ 0b00011#5 ++
    0b0010011#7) = .ok (.xori 3 1 15) := by decide
theorem test_decode_srli : decode (0b0000000#7 ++ 0b11111#5 ++ 0b00001#5 ++ 0b101#3 ++ 0b00011#5 ++
    0b0010011#7) = .ok (.srli 3 1 31) := by decide
theorem test_decode_ori : decode (0b011001111000#12 ++ 0b00001#5 ++ 0b110#3 ++ 0b00011#5 ++
    0b0010011#7) = .ok (.ori 3 1 0x678) := by decide
theorem test_decode_andi : decode (0b000011111111#12 ++ 0b00001#5 ++ 0b111#3 ++ 0b00011#5 ++
    0b0010011#7) = .ok (.andi 3 1 255) := by decide
theorem test_decode_lw : decode (0b000000000100#12 ++ 0b00001#5 ++ 0b010#3 ++ 0b00011#5 ++
    0b0000011#7) = .ok (.lw 3 1 4) := by decide
theorem test_decode_sw : decode (0b1111111#7 ++ 0b00010#5 ++ 0b00001#5 ++ 0b010#3 ++ 0b11100#5 ++
    0b0100011#7) = .ok (.sw 2 1 (-4)) := by decide
theorem test_decode_beq : decode (0b0#1 ++ 0b111111#6 ++ 0b00010#5 ++ 0b00001#5 ++ 0b000#3 ++
    0b1111#4 ++ 0b1#1 ++ 0b1100011#7) = .ok (.beq 1 2 4094) := by decide
theorem test_decode_bne : decode (0b1#1 ++ 0b111111#6 ++ 0b00010#5 ++ 0b00001#5 ++ 0b001#3 ++
    0b1100#4 ++ 0b1#1 ++ 0b1100011#7) = .ok (.bne 1 2 (-8)) := by decide
theorem test_decode_lui : decode (0b00010010001101000101#20 ++ 0b00101#5 ++ 0b0110111#7) =
    .ok (.lui 5 0x12345) := by decide
theorem test_decode_jal : decode (0b0#1 ++ 0b0110100010#10 ++ 0b0#1 ++ 0b00010010#8 ++ 0b00101#5 ++
    0b1101111#7) = .ok (.jal 5 0x12344) := by decide
theorem test_decode_ecall : decode (0b111111111111#12 ++ 0b11111#5 ++ 0b111#3 ++ 0b11111#5 ++
    0b1110011#7) = .ok .ecall := by decide

/-! Words that are none of the 22 (R76, spec/95_test_vectors.md section 2.8), and bytes. -/

theorem test_undefined_opcodes :
    decode 0x00000000 = .error (.undefinedOpcode 0x00) ∧
    decode 0xFFFFFFFF = .error (.undefinedOpcode 0x7F) ∧
    decode 0x00000001 = .error (.undefinedOpcode 0x01) ∧
    decode 0x00000017 = .error (.undefinedOpcode 0x17) ∧
    decode 0x00008067 = .error (.undefinedOpcode 0x67) ∧
    decode 0x0000000F = .error (.undefinedOpcode 0x0F) :=
  ⟨by decide, by decide, by decide, by decide, by decide, by decide⟩
theorem test_undefined_functs_reg :
    decode 0x02208033 = .error (.undefinedFunct 0x33) ∧
    decode 0x20000033 = .error (.undefinedFunct 0x33) ∧
    decode 0x4020D1B3 = .error (.undefinedFunct 0x33) ∧
    decode 0x0020B1B3 = .error (.undefinedFunct 0x33) ∧
    decode 0x0000B013 = .error (.undefinedFunct 0x13) :=
  ⟨by decide, by decide, by decide, by decide, by decide⟩
theorem test_undefined_functs :
    decode 0x40005013 = .error (.undefinedFunct 0x13) ∧
    decode 0x02001013 = .error (.undefinedFunct 0x13) ∧
    decode 0x00A00083 = .error (.undefinedFunct 0x03) ∧
    decode 0x00001023 = .error (.undefinedFunct 0x23) ∧
    decode 0x00004063 = .error (.undefinedFunct 0x63) :=
  ⟨by decide, by decide, by decide, by decide, by decide⟩
theorem test_decode_bytes_little_endian :
    decodeBytes [0x93, 0x00, 0x50, 0x00, 0x73] = .ok (.addi 1 0 5, [0x73]) ∧
      decodeBytes [0x93, 0x00, 0x50] = .error .truncated := by decide
theorem test_decode_table_word :
    decodeTableWord 32 0x402081B3 = some (.sub 3 1 2) ∧ decodeTableWord 32 0 = none := by decide
theorem test_encode_examples : encode (.jal 5 0x12344) = 0x344122EF ∧
    encode (.bne 1 2 (-8)) = 0xFE209CE3 ∧ encode (.sw 2 1 (-4)) = 0xFE20AE23 := by decide

/-! One step of each instruction, fetched and decoded from its word (spec/95_test_vectors.md sections
2.2 to 2.7). -/

theorem test_add_source_is_destination :
    result 1 (stepOn (core 0x40000001 0) 0x001080B3) = some (0x80000002, 0x1004) := by decide
theorem test_sub_borrows :
    result 3 (stepOn (core 0 1) 0x402081B3) = some (0xFFFFFFFF, 0x1004) := by decide
theorem test_sll_by_32_is_by_0 :
    result 3 (stepOn (core 1 0x20) 0x002091B3) = some (1, 0x1004) := by decide
theorem test_slt_both_settings :
    result 3 (stepOn (core 0x80000000 0x7FFFFFFF) 0x0020A1B3) = some (1, 0x1004) ∧
      result 3 (stepOn (core 0x80000000 0x7FFFFFFF 0x1000 unsignedSlt) 0x0020A1B3) =
        some (0, 0x1004) := by decide
theorem test_xor_complements :
    result 3 (stepOn (core 0x12345678 0xFFFFFFFF) 0x0020C1B3) = some (0xEDCBA987, 0x1004) := by decide
theorem test_srl_is_logical :
    result 3 (stepOn (core 0xF0000000 0x24) 0x0020D1B3) = some (0x0F000000, 0x1004) := by decide
theorem test_or :
    result 3 (stepOn (core 0xFF00FF00 0x0FF00FF0) 0x0020E1B3) = some (0xFFF0FFF0, 0x1004) := by decide
theorem test_and :
    result 3 (stepOn (core 0xFF00FF00 0x0FF00FF0) 0x0020F1B3) = some (0x0F000F00, 0x1004) := by decide
theorem test_addi_bit_30_does_not_subtract :
    result 3 (stepOn (core 0x1000 0) 0x40008193) = some (0x1400, 0x1004) := by decide
theorem test_slli :
    result 3 (stepOn (core 0x12345678 0) 0x00809193) = some (0x34567800, 0x1004) := by decide
theorem test_slti_both_settings :
    result 3 (stepOn (core 0 0) 0xFFF0A193) = some (0, 0x1004) ∧
      result 3 (stepOn (core 0 0 0x1000 unsignedSlt) 0xFFF0A193) = some (1, 0x1004) := by decide
theorem test_xori_sign_extends :
    result 3 (stepOn (core 0x12345678 0) 0xFFF0C193) = some (0xEDCBA987, 0x1004) := by decide
theorem test_srli_is_logical :
    result 3 (stepOn (core 0x80000000 0) 0x01F0D193) = some (1, 0x1004) := by decide
theorem test_ori_sign_extends :
    result 3 (stepOn (core 0 0) 0x8000E193) = some (0xFFFFF800, 0x1004) := by decide
theorem test_andi_sign_extends :
    result 3 (stepOn (core 0x12345678 0) 0xFF00F193) = some (0x12345670, 0x1004) := by decide
theorem test_lw_wraps_address : result 3 (stepOn (withBytes (core 0xFFFFFFFF 0) 0
    [0x78, 0x56, 0x34, 0x12]) 0x0010A183) = some (0x12345678, 0x1004) := by decide
theorem test_sw_misaligned : stored 0x27FF (stepOn (core 0x2000 0xA1B2C3D4) 0x7E20AFA3) =
    some [0xD4, 0xC3, 0xB2, 0xA1] := by decide
theorem test_beq_extremes :
    ended (stepOn (core 1 1 0x2000) 0x7E208FE3) = some (.running, 0x2FFE) ∧
      ended (stepOn (core 1 1 0x2000) 0x80208063) = some (.running, 0x1000) := by decide
theorem test_bne_sees_bit_31 :
    ended (stepOn (core 0xFFFFFFFF 0x7FFFFFFF 0x2000) 0x00209163) = some (.running, 0x2002) := by
  decide
theorem test_lui : result 5 (stepOn (core 0 0) 0xFFFFF2B7) = some (0xFFFFF000, 0x1004) := by decide
theorem test_jal_wraps :
    result 1 (stepOn (core 0 0 0) 0xFFDFF0EF) = some (4, 0xFFFFFFFC) := by decide
theorem test_ecall_at_last_word :
    ended (stepOn (core 0 0 0xFFFFC) 0x00000073) = some (.halted, 0x100000) := by decide

/-! Faults and stopped cores (spec/95_test_vectors.md T8, T9). -/

theorem test_fetch_out_of_bounds :
    ended (step (core 0 0 0x100000)) = some (.faulted (.outOfBounds 0x100000 4 .fetch), 0x100000) ∧
    ended (step (core 0 0 0xFFFFD)) = some (.faulted (.outOfBounds 0xFFFFD 4 .fetch), 0xFFFFD) ∧
    ended (step (core 0 0 0xFFFFFFFE)) =
      some (.faulted (.outOfBounds 0xFFFFFFFE 4 .fetch), 0xFFFFFFFE) :=
  ⟨by decide, by decide, by decide⟩
theorem test_first_step_from_reset_decodes_zero :
    ended (step State.reset) = some (.faulted (.decodeError 0), 0) := by decide
theorem test_decode_error_names_opcode :
    ended (stepOn (core 0 0) 0x0000007F) = some (.faulted (.decodeError 0x7F), 0x1000) := by decide
theorem test_reset_runs_a_placed_word :
    result 1 (step (State.reset.withFetchWord 32 0x00500093)) = some (5, 4) := by decide

/-! Witnesses: the machine's statements. -/

theorem witness_ResetSatisfiesInvariant : ({ Config.default with memCapacity := 2 ^ 32 }).wf ∧
    ({ Config.default with memCapacity := 0 }).wf := by decide
theorem witness_StepKeepsInvariant : (State.reset).Inv ∧
    (after (step State.reset)).isSome = true :=
  ⟨⟨by decide, by decide, by decide, by decide⟩, by decide⟩
theorem witness_DecodeOfEncodeIsTheInstruction :
    Instr.wellFormed (.jal 31 0x1FFFFE) = true := by decide
theorem witness_EncodeOfDecodeIsTheWord : decode 0x7E208FE3 = .ok (.beq 1 2 4094) ∧
    Instr.beq 1 2 4094 ≠ .ecall := by decide
theorem witness_IllegalWordsRaiseDecodeError : (core 0 0 0xFFFFC).Active ∧
    (core 0 0 0xFFFFC).pc.toNat + 4 ≤ (core 0 0 0xFFFFC).cfg.memCapacity ∧
    IllegalWord 0x00000000 ∧ IllegalWord 0x02208033 ∧ IllegalWord 0x02001013 ∧
    IllegalWord 0x00A00083 ∧ IllegalWord 0x00001023 ∧ IllegalWord 0x00004063 ∧
    ¬IllegalWord 0x402081B3 := by
  refine ⟨by decide, by decide, ?_, ?_, ?_, ?_, ?_, ?_, ?_⟩ <;> unfold IllegalWord <;> decide
theorem witness_RegisterReadAfterWrite :
    (core 1 2 0 hardwired).cfg.x0Hardwired = true ∧ ((core 1 2).writeReg 0 7).readReg 0 = 7 ∧
      ((core 1 2 0 hardwired).writeReg 0 7).readReg 0 = 0 := by decide
theorem witness_MemReadIsLittleEndianAndBounded :
    (0xFFFFD : Word).toNat + 4 > (core 0 0).cfg.memCapacity ∧
    (0xFFFFC : Word).toNat + 4 ≤ (core 0 0).cfg.memCapacity ∧
    (0xFFFFF : Word).toNat + 2 > (core 0 0).cfg.memCapacity ∧
    (0xFFFFF : Word).toNat + 1 ≤ (core 0 0).cfg.memCapacity := by decide
theorem witness_MemWriteIsAllOrNothing : (core 0 0).mem.wf ∧
    (0xFFFFD : Word).toNat + 4 > (core 0 0).cfg.memCapacity ∧
    (0xFFFFC : Word).toNat + 4 ≤ (core 0 0).cfg.memCapacity := by decide
theorem witness_WidthsSeeOneAnothersBytes : (State.reset).Inv ∧
    (∃ t, State.reset.memWrite 0x2000 .word 0x11223344 .store = .ok t ∧
      ∃ u, t.memWrite 0x2003 .word 0xAABBCCDD .store = .ok u) :=
  ⟨⟨by decide, by decide, by decide, by decide⟩, _, rfl, _, rfl⟩
theorem witness_StoredWordLoadsBack : (core 0 0).mem.wf ∧
    (0xFFFFC : Word).toNat + 4 ≤ (core 0 0).cfg.memCapacity := by decide
theorem witness_StepRunsTheDecodedInstruction :
    let s := (core 1 2 0xFFFFC).withFetchWord 32 0x002081B3
    s.Active ∧ s.pc.toNat + 4 ≤ s.cfg.memCapacity ∧
      decode (wordAt s s.pc.toNat) = .ok (.add 3 1 2) ∧ Instr.wellFormed (.add 3 1 2) = true ∧
      wordAt s s.pc.toNat = encode (.add 3 1 2) := by decide
theorem witness_FetchReadsTheWordAtThePc :
    (core 0 0 0xFFFFD).cfg.memCapacity < (core 0 0 0xFFFFD).pc.toNat + 4 ∧
      (core 0 0 0xFFFFC).pc.toNat + 4 ≤ (core 0 0 0xFFFFC).cfg.memCapacity := by decide
theorem witness_StoppedCoreTakesNoStep :
    (after (stepOn (core 0 0) 0x00000073)).map (·.status) = some .halted ∧
      (after (step (core 0 0))).map (·.status) = some (.faulted (.decodeError 0)) := by decide
theorem witness_FaultingStepChangesOnlyStatus : (core 0 0).Active ∧
    after (step (core 0 0)) = some { core 0 0 with status := .faulted (.decodeError 0) } := by decide
theorem witness_StepFaultsExactlyAsTabled :
    (core 0 0 0xFFFFD).Active ∧
    (core 0 0 0xFFFFD).cfg.memCapacity < (core 0 0 0xFFFFD).pc.toNat + 4 ∧
    (core 0 0 0xFFFFC).pc.toNat + 4 ≤ (core 0 0 0xFFFFC).cfg.memCapacity ∧
    decode (wordAt (core 0 0 0xFFFFC) 0xFFFFC) = .error (.undefinedOpcode 0) ∧
    (let s := (core 0xFFFFD 0).withFetchWord 32 0x0000A183
     s.Active ∧ decode (wordAt s s.pc.toNat) = .ok (.lw 3 1 0) ∧
       s.cfg.memCapacity < (effectiveAddress s 1 0).toNat + 4) ∧
    (let s := (core 0xFFFFD 0).withFetchWord 32 0x0020A023
     s.Active ∧ decode (wordAt s s.pc.toNat) = .ok (.sw 2 1 0) ∧
       s.cfg.memCapacity < (effectiveAddress s 1 0).toNat + 4) := by decide
theorem witness_OnlyEcallHalts : (core 0 0).Active ∧
    (after (exec .ecall (core 0 0))).isSome = true ∧
    (after (exec (.add 1 1 2) (core 0 0))).isSome = true := by decide
theorem witness_PcUpdateOfEveryInstruction : (core 1 1).Active ∧
    ended (exec (.jal 1 8) (core 1 1)) = some (.running, 0x1008) ∧
    ended (exec (.beq 1 2 16) (core 1 1)) = some (.running, 0x1010) ∧
    ended (exec (.bne 1 2 16) (core 1 1)) = some (.running, 0x1004) ∧
    ended (exec (.lw 3 1 0) (core 1 1)) = some (.running, 0x1004) := by decide
theorem witness_FrameOfEveryInstruction : (core 0x2000 5).mem.wf ∧
    (after (exec (.sw 2 1 0) (core 0x2000 5))).isSome = true ∧
    (0x2004 < (effectiveAddress (core 0x2000 5) 1 0).toNat ∨
      (effectiveAddress (core 0x2000 5) 1 0).toNat + 4 ≤ 0x2004) ∧
    Instr.destination (.sw 2 1 0) ≠ some 3 := by decide
theorem witness_InstructionReadsOnlyItsSources :
    let s := core 5 6
    let s' := s.writeReg 7 1
    s.Active ∧ (after (exec (.add 3 1 2) s)).isSome = true ∧
      (after (exec (.add 3 1 2) s')).isSome = true ∧ s'.pc = s.pc ∧ s'.mem = s.mem ∧
      s'.halted = s.halted ∧ s'.status = s.status ∧ s'.cfg = s.cfg ∧
      ∀ r ∈ Instr.sources (.add 3 1 2), s'.readReg r = s.readReg r := by decide
theorem witness_StoreIsSeenByTheNextFetch : (core 0x1004 0x00100073).Inv ∧
    (core 0x1004 0x00100073).Active ∧
    effectiveAddress (core 0x1004 0x00100073) 1 0 = u32 (0x1000 + 4) ∧
    (effectiveAddress (core 0x1004 0x00100073) 1 0).toNat + 4 ≤ 0x100000 ∧
    decode ((core 0x1004 0x00100073).readReg 2) = .ok .ecall :=
  ⟨⟨by decide, by decide, by decide, by decide⟩, by decide, by decide, by decide, by decide⟩
theorem witness_RunEndsInOneOfTwoWaysAndStaysEnded : (State.reset).Inv ∧
    run 1 State.reset = .faulted { State.reset with status := .faulted (.decodeError 0) }
      (.decodeError 0) ∧
    run 0 State.reset = .notEnded State.reset ∧
    (∃ t, run 1 (State.reset.withFetchWord 32 0x73) = .halted t) :=
  ⟨⟨by decide, by decide, by decide, by decide⟩, by decide, by decide, _, rfl⟩

/-! Witnesses: the statements of what each instruction does, with the result the spec's examples give. -/

theorem witness_AddWritesTheSum : (core 1 2).Active ∧
    result 3 (exec (.add 3 1 2) (core 1 2)) = some (3, 0x1004) := by decide
theorem witness_SubWritesTheDifference : (core 5 3).Active ∧
    result 3 (exec (.sub 3 1 2) (core 5 3)) = some (2, 0x1004) := by decide
theorem witness_SllShiftsLeft : (core 1 31).Active ∧
    result 3 (exec (.sll 3 1 2) (core 1 31)) = some (0x80000000, 0x1004) := by decide
theorem witness_SltSetsOnLess : (core 1 2).Active ∧
    result 3 (exec (.slt 3 1 2) (core 1 2)) = some (1, 0x1004) := by decide
theorem witness_XorWritesExclusiveOr : (core 0xFF00FF00 0x0FF00FF0).Active ∧
    result 3 (exec (.xor 3 1 2) (core 0xFF00FF00 0x0FF00FF0)) = some (0xF0F0F0F0, 0x1004) := by
  decide
theorem witness_SrlShiftsRight : (core 0x80000000 31).Active ∧
    result 3 (exec (.srl 3 1 2) (core 0x80000000 31)) = some (1, 0x1004) := by decide
theorem witness_OrWritesInclusiveOr : (core 0x0F 0xF0).Active ∧
    (after (exec (.or 3 1 2) (core 0x0F 0xF0))).isSome = true := by decide
theorem witness_AndWritesConjunction : (core 0x0F 0xF0).Active ∧
    (after (exec (.and 3 1 2) (core 0x0F 0xF0))).isSome = true := by decide
theorem witness_AddiWritesTheSum : (core 5 0).Active ∧
    result 3 (exec (.addi 3 1 (-1)) (core 5 0)) = some (4, 0x1004) := by decide
theorem witness_SlliShiftsLeft : (core 1 0).Active ∧ (1 : BitVec 7) ≠ 0 ∧
    result 3 (exec (.slli 3 1 31) (core 1 0)) = some (0x80000000, 0x1004) := by decide
theorem witness_SltiSetsOnLess : (core 0 0).Active ∧
    result 3 (exec (.slti 3 1 1) (core 0 0)) = some (1, 0x1004) := by decide
theorem witness_XoriWritesExclusiveOr : (core 0xFF 0).Active ∧
    result 3 (exec (.xori 3 1 15) (core 0xFF 0)) = some (0xF0, 0x1004) := by decide
theorem witness_SrliShiftsRight : (core 0x12345678 0).Active ∧ (0x20 : BitVec 7) ≠ 0 ∧
    result 3 (exec (.srli 3 1 8) (core 0x12345678 0)) = some (0x123456, 0x1004) := by decide
theorem witness_OriWritesInclusiveOr : (core 0x12345000 0).Active ∧
    result 3 (exec (.ori 3 1 0x678) (core 0x12345000 0)) = some (0x12345678, 0x1004) := by decide
theorem witness_AndiWritesConjunction : (core 0x12345678 0).Active ∧
    result 3 (exec (.andi 3 1 255) (core 0x12345678 0)) = some (0x78, 0x1004) := by decide
theorem witness_LwLoadsTheWord : (core 0xFFFFC 0).Active ∧
    (effectiveAddress (core 0xFFFFC 0) 1 0).toNat + 4 ≤ (core 0xFFFFC 0).cfg.memCapacity ∧
    result 3 (exec (.lw 3 1 0) (core 0xFFFFC 0)) = some (0, 0x1004) ∧
    (core 0xFFFFD 0).Active ∧
    (core 0xFFFFD 0).cfg.memCapacity < (effectiveAddress (core 0xFFFFD 0) 1 0).toNat + 4 ∧
    ended (exec (.lw 3 1 0) (core 0xFFFFD 0)) =
      some (.faulted (.outOfBounds 0xFFFFD 4 .load), 0x1000) := by decide
theorem witness_SwStoresTheWord : (core 0xFFFFC 0xCAFEF00D).Active ∧
    (core 0xFFFFC 0xCAFEF00D).mem.wf ∧
    (effectiveAddress (core 0xFFFFC 0xCAFEF00D) 1 0).toNat + 4 ≤
      (core 0xFFFFC 0xCAFEF00D).cfg.memCapacity ∧
    stored 0xFFFFC (exec (.sw 2 1 0) (core 0xFFFFC 0xCAFEF00D)) =
      some [0x0D, 0xF0, 0xFE, 0xCA] ∧
    (core 0xFFFFD 0).cfg.memCapacity < (effectiveAddress (core 0xFFFFD 0) 1 0).toNat + 4 ∧
    ended (exec (.sw 2 1 0) (core 0xFFFFD 0)) =
      some (.faulted (.outOfBounds 0xFFFFD 4 .store), 0x1000) := by decide
theorem witness_BeqBranchesOnEqual : (core 5 5 0x2000).Active ∧ (16 : BitVec 13).getLsbD 0 = false ∧
    ended (exec (.beq 1 2 16) (core 5 5 0x2000)) = some (.running, 0x2010) ∧
    ended (exec (.beq 1 2 16) (core 5 6 0x2000)) = some (.running, 0x2004) := by decide
theorem witness_BneBranchesOnDifferent : (core 5 6 0x2000).Active ∧
    (-8 : BitVec 13).getLsbD 0 = false ∧
    ended (exec (.bne 1 2 (-8)) (core 5 6 0x2000)) = some (.running, 0x1FF8) ∧
    ended (exec (.bne 1 2 (-8)) (core 5 5 0x2000)) = some (.running, 0x2004) := by decide
theorem witness_LuiLoadsTheUpperImmediate : (core 0 0).Active ∧
    result 5 (exec (.lui 5 0x12345) (core 0 0)) = some (0x12345000, 0x1004) := by decide
theorem witness_JalLinksAndJumps : (core 0 0).Active ∧ (8 : BitVec 21).getLsbD 0 = false ∧
    result 1 (exec (.jal 1 8) (core 0 0)) = some (0x1004, 0x1008) := by decide
theorem witness_EcallHaltsTheCore : slice 0x30200073 6 0 = 0b1110011 ∧ (core 0 0).Active ∧
    ended (exec .ecall (core 0 0)) = some (.halted, 0x1004) ∧
    (after (exec (.jal 0 0) (core 0 0))).isSome = true ∧ Instr.jal 0 0 ≠ .ecall := by decide
theorem witness_AddThenSubRestores : (core 0xFFFFFFF0 0x25).Active ∧ (3 : RegIdx) ≠ 2 ∧
    slice 0x022081B3 6 0 = 0x33 ∧ slice 0x022081B3 31 25 = 1 := by decide
theorem witness_LuiAddiBuildsAnyConstant : (core 0 0).Active ∧ slice 0x00000017 6 0 = 0x17 ∧
    result 6 (exec (.addi 6 6 (-273)) ((core 0 0).writeReg 6 0xDEADC000)) =
      some (0xDEADBEEF, 0x1004) := by decide
theorem witness_RegisterZeroPoliciesAgree : (core 5 6).regs[0] = 0 ∧
    Instr.destination (.add 3 0 1) ≠ some 0 := by decide

/-! Witnesses: the host's operations. The file is the 92 bytes of spec/95_test_vectors.md T7. -/

/-- The ELF file of T7. -/
def scenarioFile : List Byte :=
  [0x7F, 0x45, 0x4C, 0x46, 0x01, 0x01, 0x01, 0x00, 0x00, 0x00, 0x00, 0x00, 0x00, 0x00, 0x00, 0x00] ++
  [0x02, 0x00, 0xF3, 0x00, 0x01, 0x00, 0x00, 0x00, 0x00, 0x10, 0x00, 0x00, 0x34, 0x00, 0x00, 0x00] ++
  [0x00, 0x00, 0x00, 0x00, 0x00, 0x00, 0x00, 0x00, 0x34, 0x00, 0x20, 0x00, 0x01, 0x00, 0x00, 0x00] ++
  [0x00, 0x00, 0x00, 0x00, 0x01, 0x00, 0x00, 0x00, 0x54, 0x00, 0x00, 0x00, 0x00, 0x10, 0x00, 0x00] ++
  [0x00, 0x10, 0x00, 0x00, 0x08, 0x00, 0x00, 0x00, 0x08, 0x00, 0x00, 0x00, 0x05, 0x00, 0x00, 0x00] ++
  [0x04, 0x00, 0x00, 0x00, 0x93, 0x00, 0x50, 0x00, 0x73, 0x00, 0x00, 0x00]

theorem witness_LoadBlockCopiesOrRefuses : (core 0 0).mem.wf ∧
    (core 0 0).cfg.memCapacity < (0xFFFFE : Word).toNat + [1, 2, 3].length ∧
    (0xFFFFD : Word).toNat + [1, 2, 3].length ≤ (core 0 0).cfg.memCapacity := by decide
theorem witness_LaunchStateHoldsTheImage :
    (∀ g ∈ ([(0x1000, [0x93]), (0xFFFFF, [0x73])] : List (Word × List Byte)),
      g.1.toNat + g.2.length ≤ Config.default.memCapacity) ∧
    ∃ g ∈ ([(0x100000, [0x73])] : List (Word × List Byte)),
      Config.default.memCapacity < g.1.toNat + g.2.length :=
  ⟨by decide, _, .head _, by decide⟩
/-- Its header and its one program-header entry, as T7 annotates them. -/
def scenarioHeader : ElfHeader := ElfHeader.mk 0x1000 0x34 0x20 1

def scenarioEntry : ProgramHeader := ProgramHeader.mk 1 0x54 0x1000 8 8

/-- The exact fit, at capacity 0x1008, and one byte less. -/
theorem witness_LoaderCopiesOneSegment :
    scenarioFile.take 4 = [0x7F, 0x45, 0x4C, 0x46] ∧
    readElfHeader scenarioFile = .ok scenarioHeader ∧
    scenarioHeader.tableOffset + scenarioHeader.count * scenarioHeader.entrySize ≤
      scenarioFile.length ∧
    [scenarioEntry].length = scenarioHeader.count ∧
    readProgramHeader scenarioFile (scenarioHeader.tableOffset + 0 * scenarioHeader.entrySize) =
      .ok scenarioEntry ∧
    [scenarioEntry].filter (fun q => q.segmentType = 1) = [scenarioEntry] ∧
    scenarioEntry.fileOffset + scenarioEntry.fileSize ≤ scenarioFile.length ∧
    scenarioEntry.virtualAddress + scenarioEntry.fileSize ≤ 0x1008 ∧
    0x1007 < scenarioEntry.virtualAddress + scenarioEntry.fileSize := by decide
/-- T7's file with a table of two entries, the first not loadable (type 0), the second T7's with its
segment 32 bytes further on in the file. -/
def twoEntryFile : List Byte :=
  scenarioFile.take 32 ++
  [0x00, 0x00, 0x00, 0x00, 0x00, 0x00, 0x00, 0x00, 0x34, 0x00, 0x20, 0x00, 0x02, 0x00, 0x00, 0x00] ++
  [0x00, 0x00, 0x00, 0x00] ++
  [0x00, 0x00, 0x00, 0x00, 0x00, 0x00, 0x00, 0x00, 0x00, 0x00, 0x00, 0x00, 0x00, 0x00, 0x00, 0x00] ++
  [0x00, 0x00, 0x00, 0x00, 0x00, 0x00, 0x00, 0x00, 0x00, 0x00, 0x00, 0x00, 0x00, 0x00, 0x00, 0x00] ++
  [0x01, 0x00, 0x00, 0x00, 0x74, 0x00, 0x00, 0x00, 0x00, 0x10, 0x00, 0x00] ++
  scenarioFile.drop 64

/-- Its second entry. -/
def secondEntry : ProgramHeader := ProgramHeader.mk 1 0x74 0x1000 8 8

theorem witness_LoaderCopiesOneSegment_header :
    readElfHeader twoEntryFile = .ok (ElfHeader.mk 0x1000 0x34 0x20 2) := by decide +kernel
theorem witness_LoaderCopiesOneSegment_entries :
    readProgramHeader twoEntryFile (0x34 + 0 * 0x20) = .ok (ProgramHeader.mk 0 0 0 0 0) ∧
    readProgramHeader twoEntryFile (0x34 + 1 * 0x20) = .ok secondEntry := by decide +kernel
theorem witness_LoaderCopiesOneSegment_ranges :
    [ProgramHeader.mk 0 0 0 0 0, secondEntry].filter (fun q => q.segmentType = 1) = [secondEntry] ∧
    twoEntryFile.take 4 = [0x7F, 0x45, 0x4C, 0x46] ∧ twoEntryFile.length = 0x74 + 8 ∧
    0x34 + 2 * 0x20 ≤ 0x74 + 8 := ⟨by decide, by rfl, by rfl, by decide⟩
/-- A capacity that makes room for T7's segment exactly. -/
def exactFit : Config := { Config.default with memCapacity := 0x1008 }
theorem witness_LoadedFileIsWhole : (launchElf exactFit scenarioFile).toOption.isSome = true := by
  decide
theorem witness_MemoryOverflowNamesTheBlock :
    (core 0 0).cfg.memCapacity < (0xFFFFE : Word).toNat + [1, 2, 3].length ∧
    (∀ f ∈ ([(0x1000, [0x93])] : List (Word × List Byte)),
      f.1.toNat + f.2.length ≤ Config.default.memCapacity) ∧
    Config.default.memCapacity < (0x100000 : Word).toNat + [0x73].length ∧
    readElfHeader scenarioFile = .ok scenarioHeader ∧ 0 < scenarioHeader.count ∧
    readProgramHeader scenarioFile (scenarioHeader.tableOffset + 0 * scenarioHeader.entrySize) =
      .ok scenarioEntry ∧ scenarioEntry.segmentType = 1 ∧
    0x1007 < scenarioEntry.virtualAddress + scenarioEntry.fileSize := by decide

/-- A file too short for its header, its table or its segment is a host error (R167, U14). -/
theorem test_short_files_are_refused :
    launchElf Config.default (scenarioFile.take 51) = .error .truncatedFile ∧
    launchElf Config.default (scenarioFile.take 0x53) = .error .truncatedFile ∧
    launchElf Config.default (scenarioFile.take 91) = .error .truncatedFile ∧
    launchElf Config.default (scenarioFile.take 3) = .error .invalidFormat :=
  ⟨by decide, by decide, by decide, by decide⟩

/-! Witnesses: the host interface with its phases. -/

/-- An instance in its run, from the reset state with nothing loaded. -/
def inRun : Session := { phase := .inRun, core := State.reset }

theorem witness_HostOperationsAreOpenOnlyWhenTheTableSays :
    inRun.phase = .inRun ∧ inRun.tick.phase = .afterRun ∧
    (Session.new Config.default).phase = .beforeRun ∧
    (∃ t, (Session.new Config.default).core.loadBlock 0xFFFFF [0x73] = .ok t) ∧
    (∃ e, (Session.new Config.default).core.loadBlock 0x100000 [0x73] = .error e) ∧
    0xFFFFC + 4 ≤ (Session.new Config.default).core.cfg.memCapacity ∧
    (Session.new Config.default).core.cfg.memCapacity < 0xFFFFD + 4 :=
  ⟨rfl, by decide, rfl, ⟨_, rfl⟩, ⟨_, rfl⟩, by decide, by decide⟩
theorem witness_SessionInvariantIsKept : exactFit.wf ∧ inRun.Inv ∧ inRun.tick.phase = .afterRun ∧
    (Session.new Config.default).Inv ∧ (Session.new Config.default).phase ≠ .inRun :=
  ⟨by decide, ⟨⟨by decide, by decide, by decide, by decide⟩, by decide⟩, by decide,
    ⟨⟨by decide, by decide, by decide, by decide⟩, by decide⟩, by decide⟩
theorem witness_HostCommandsLaunchAndRun :
    (∃ s, launch Config.default [(0x1000, [0x73])] 0x1000 = .ok s ∧ ∃ t, run 1 s = .halted t) ∧
    (∃ s, launch Config.default [] 0 = .ok s ∧ (∃ t f, run 1 s = .faulted t f) ∧
      ∃ t, run 0 s = .notEnded t) ∧
    ∃ e, launch Config.default [(0x100000, [0x73])] 0 = .error e :=
  ⟨⟨_, rfl, _, rfl⟩, ⟨_, rfl, ⟨_, _, rfl⟩, _, rfl⟩, _, rfl⟩
theorem test_run_is_open_once :
    ((Session.new Config.default).request .run).2.tick.request .run =
      (.error .notAllowed, inRun.tick) ∧
    (inRun.request (.setPc 4)).1 = .error .notAllowed := by decide

end Sys2Proof.Tests
end

section
/-! PROOFS. The general registers: what a write changes and what a read answers, in the terms of the
statements (spec/10_state.md R16, R17). -/

namespace Sys2Proof.Machine

theorem isHardwired_eq_false_iff (s : State) (i : RegIdx) :
    s.isHardwired i = false ↔ ¬(s.cfg.x0Hardwired = true ∧ i = 0) := by
  rw [← isHardwired_iff, Bool.not_eq_true]

/-- `readReg_writeReg` with the discarded write said through the instance's policy (R15, R17). -/
theorem readReg_writeReg_policy (s : State) (i j : RegIdx) (v : Word) :
    (s.writeReg i v).readReg j =
      if j = i ∧ ¬(s.cfg.x0Hardwired = true ∧ i = 0) then v else s.readReg j := by
  simp only [readReg_writeReg, isHardwired_eq_false_iff]

/-- The frame of a register write: the machine state outside the registers (R17). -/
theorem writeReg_sameButRegsAndPc (s : State) (i : RegIdx) (v : Word) :
    SameButRegsAndPc s (s.writeReg i v) where
  memory a := by rw [writeReg_mem]
  halted := writeReg_halted s i v
  status := writeReg_status s i v
  parameters := writeReg_cfg s i v

/-- At reset every register reads 0 under both policies: as the hard-wired zero or from the cleared
register file (R16, R157). -/
@[simp] theorem readReg_resetWith (c : Config) (i : RegIdx) : (State.resetWith c).readReg i = 0 := by
  have cleared : (State.resetWith c).regs[i] = 0 := by simp [State.resetWith]
  rw [State.readReg, cleared, ite_self]

/-- Settles O11, from the read-after-write rule, the frame of a register write, the hard-wired read
and the reads at reset. -/
theorem registerReadAfterWrite : Obligations.RegisterReadAfterWrite := by
  unfold Obligations.RegisterReadAfterWrite
  refine ⟨fun s i j v => ?readAfterWrite, fun s h => ?hardwiredZero, readReg_resetWith⟩
  case readAfterWrite =>
    exact ⟨readReg_writeReg_policy s i j v, writeReg_pc s i v, writeReg_sameButRegsAndPc s i v⟩
  case hardwiredZero => exact readReg_hardwired ((isHardwired_iff s 0).2 ⟨h, rfl⟩)

end Sys2Proof.Machine
end

section
/-! PROOFS. The memory interface and LoadBlock: the value of a range of bytes, what a written range
reads as, and the reads, writes and copies of the statements built on the two (spec/20_memory.md
R35, R36, R38). -/

namespace Sys2Proof.Machine

/-! Widths. -/

/-- The three rows of the statements' table of widths give each width its byte count (R44). -/
theorem Width.bytes_eq_of_mem_table {width : Width} {n : ℕ}
    (h : (width, n) ∈ [(Width.byte, 1), (Width.half, 2), (Width.word, 4)]) : width.bytes = n := by
  simp only [List.mem_cons, List.not_mem_nil, or_false, Prod.mk.injEq] at h
  rcases h with ⟨rfl, rfl⟩ | ⟨rfl, rfl⟩ | ⟨rfl, rfl⟩ <;> rfl

theorem Width.bytes_le_four (width : Width) : width.bytes ≤ 4 := by
  cases width <;> decide

/-! Ranges of bytes. -/

/-- The value of a range of bytes as R35 writes it, a sum over the addresses. -/
theorem littleEndian_readBytes (m : Memory) (a n : ℕ) :
    littleEndian (m.readBytes a n) =
      ∑ i ∈ Finset.range n, (m.read (a + i)).toNat * 2 ^ (8 * i) := by
  induction n generalizing a with
  | zero => rfl
  | succ n ih =>
    have higher : ∀ i, (m.read (a + (i + 1))).toNat * 2 ^ (8 * (i + 1)) =
        256 * ((m.read (a + 1 + i)).toNat * 2 ^ (8 * i)) := by
      intro i
      rw [show a + (i + 1) = a + 1 + i by omega, mul_add, pow_add]
      ring
    rw [Memory.readBytes, littleEndian, ih, Finset.sum_range_succ', Finset.mul_sum]
    simp only [higher]
    simp [add_comm]

/-- The bytes of one access are worth less than a word, so the 32-bit result holds their value
(R35, log 12). -/
theorem littleEndian_readBytes_width_lt (m : Memory) (a : ℕ) (width : Width) :
    littleEndian (m.readBytes a width.bytes) < 2 ^ 32 :=
  calc littleEndian (m.readBytes a width.bytes)
      < 256 ^ width.bytes := by
        simpa only [Memory.length_readBytes] using littleEndian_lt (m.readBytes a width.bytes)
    _ ≤ 256 ^ 4 := Nat.pow_le_pow_right (by decide) width.bytes_le_four
    _ = 2 ^ 32 := by norm_num

/-- Byte `i` of a string that was written at `a` is at `a + i`. -/
theorem Memory.read_writeBytes_inside {m : Memory} (hm : m.wf) (a : ℕ) {bytes : List Byte} {i : ℕ}
    (h : i < bytes.length) : (m.writeBytes a bytes).read (a + i) = bytes[i] := by
  rw [Memory.read_writeBytes _ hm, if_pos ⟨by omega, by omega⟩, Nat.add_sub_cancel_left,
    List.getD_eq_getElem _ _ h]

/-- A byte outside the range of a string that was written is as before. -/
theorem Memory.read_writeBytes_outside {m : Memory} (hm : m.wf) {a x : ℕ} {bytes : List Byte}
    (h : x < a ∨ a + bytes.length ≤ x) : (m.writeBytes a bytes).read x = m.read x := by
  rw [Memory.read_writeBytes _ hm, if_neg (by omega)]

/-- Byte `i` of the low `n` bytes of a word is its bits `8i+7` down to `8i` (R36). -/
theorem toNat_getElem_littleEndianBytes {n i : ℕ} (v : Word)
    (h : i < (littleEndianBytes n v.toNat).length) :
    ((littleEndianBytes n v.toNat)[i]).toNat = slice v (8 * i + 7) (8 * i) := by
  have hi : i < n := by rwa [length_littleEndianBytes] at h
  rw [← List.getD_eq_getElem _ 0 h, getD_littleEndianBytes _ hi, BitVec.toNat_ofNat, slice,
    show 8 * i + 7 + 1 - 8 * i = 8 by omega]

/-- The bytes of a word that was stored, in the range of the store (R36). -/
theorem Memory.read_writeBytes_littleEndian {m : Memory} (hm : m.wf) (a : ℕ) (v : Word) {n i : ℕ}
    (h : i < n) : ((m.writeBytes a (littleEndianBytes n v.toNat)).read (a + i)).toNat =
      slice v (8 * i + 7) (8 * i) := by
  have hi : i < (littleEndianBytes n v.toNat).length := by rwa [length_littleEndianBytes]
  rw [Memory.read_writeBytes_inside hm a hi, toNat_getElem_littleEndianBytes]

/-! The operations. -/

/-- The 32-bit answer of a read is the value of its bytes, not only that value modulo 2^32 (R35). -/
theorem toNat_ofNat_littleEndian_readBytes (m : Memory) (a : ℕ) (width : Width) :
    (BitVec.ofNat 32 (littleEndian (m.readBytes a width.bytes))).toNat =
      ∑ i ∈ Finset.range width.bytes, (m.read (a + i)).toNat * 2 ^ (8 * i) := by
  rw [BitVec.toNat_ofNat, Nat.mod_eq_of_lt (littleEndian_readBytes_width_lt m a width),
    littleEndian_readBytes]

/-- Settles O12: the bounds check decides between the fault and the value of the bytes read. -/
theorem memReadIsLittleEndianAndBounded : Obligations.MemReadIsLittleEndianAndBounded := by
  unfold Obligations.MemReadIsLittleEndianAndBounded
  intro s addr access width n hn
  obtain rfl := Width.bytes_eq_of_mem_table hn
  rw [memRead_eq]
  refine ⟨fun hover => ?overflow, fun hfit => ?fits⟩
  case overflow => exact if_neg (by omega)
  case fits => exact ⟨_, if_pos hfit, toNat_ofNat_littleEndian_readBytes s.mem addr.toNat width⟩

/-- Settles O13: a write past the end is refused whole, and one that fits replaces the bytes of its
range in the memory, which is all of the state it changes. -/
theorem memWriteIsAllOrNothing : Obligations.MemWriteIsAllOrNothing := by
  unfold Obligations.MemWriteIsAllOrNothing
  intro s addr v access width n hm hn
  obtain rfl := Width.bytes_eq_of_mem_table hn
  rw [memWrite_eq]
  refine ⟨fun hover => ?overflow, fun hfit => ⟨_, if_pos hfit, fun i hi => ?stored,
    fun a ha => ?kept, readReg_withMem s _, rfl, rfl, rfl, rfl⟩⟩
  case overflow => exact if_neg (by omega)
  case stored => exact Memory.read_writeBytes_littleEndian hm addr.toNat v hi
  case kept => exact Memory.read_writeBytes_outside hm (by rwa [length_littleEndianBytes])

/-- Settles O52: a block past the end is refused whole, and one that fits replaces the bytes of its
range in the memory, which is all of the state it changes. -/
theorem loadBlockCopiesOrRefuses : Obligations.LoadBlockCopiesOrRefuses := by
  unfold Obligations.LoadBlockCopiesOrRefuses
  intro s base bytes hm
  rw [loadBlock_eq]
  refine ⟨fun hover => ?overflow, fun hfit => ⟨_, if_pos hfit, fun i hi => ?copied,
    fun a ha => ?kept, readReg_withMem s _, rfl, rfl, rfl, rfl⟩⟩
  case overflow => exact ⟨_, _, if_neg (by omega)⟩
  case copied => exact Memory.read_writeBytes_inside hm base.toNat hi
  case kept => exact Memory.read_writeBytes_outside hm ha

end Sys2Proof.Machine
end

section
/-! PROOFS. The fields and the immediates of every word, in the integers of R12
(spec/30_encoding.md R57, R63 to R67). -/

namespace Sys2Proof

/-! Fields. -/

theorem toNat_opcodeOf (w : Word) : (opcodeOf w).toNat = slice w 6 0 := (slice_eq_toNat w 6 0).symm

theorem val_rdOf (w : Word) : (rdOf w : ℕ) = slice w 11 7 := (slice_eq_toNat w 11 7).symm

theorem toNat_funct3Of (w : Word) : (funct3Of w).toNat = slice w 14 12 :=
  (slice_eq_toNat w 14 12).symm

theorem val_rs1Of (w : Word) : (rs1Of w : ℕ) = slice w 19 15 := (slice_eq_toNat w 19 15).symm

theorem val_rs2Of (w : Word) : (rs2Of w : ℕ) = slice w 24 20 := (slice_eq_toNat w 24 20).symm

theorem toNat_funct7Of (w : Word) : (funct7Of w).toNat = slice w 31 25 :=
  (slice_eq_toNat w 31 25).symm

/-- Settles O8: each field is the slice of the word at its place. -/
theorem fieldsStandAtTheirBits : Obligations.FieldsStandAtTheirBits := by
  unfold Obligations.FieldsStandAtTheirBits
  exact fun w => ⟨toNat_opcodeOf w, val_rdOf w, toNat_funct3Of w, val_rs1Of w, val_rs2Of w,
    toNat_funct7Of w⟩

/-! Immediate fields: the assembled bits as a sum of slices. -/

/-- Assembling bits from left to right: the left part counts from the bit above the right one. -/
theorem toNat_append_eq_mul_add {m n : ℕ} (x : BitVec m) (y : BitVec n) :
    (x ++ y).toNat = x.toNat * 2 ^ n + y.toNat := by
  rw [BitVec.toNat_append, ← Nat.shiftLeft_add_eq_or_of_lt y.isLt, Nat.shiftLeft_eq]

theorem toNat_fieldI (w : Word) : (fieldI w).toNat = slice w 31 20 := (slice_eq_toNat w 31 20).symm

theorem toNat_fieldS (w : Word) :
    (fieldS w).toNat = slice w 31 25 * 2 ^ 5 + slice w 11 7 := by
  simp only [fieldS, toNat_append_eq_mul_add, slice_eq_toNat]

theorem toNat_fieldB (w : Word) :
    (fieldB w).toNat = slice w 31 31 * 2 ^ 12 + slice w 7 7 * 2 ^ 11 +
      slice w 30 25 * 2 ^ 5 + slice w 11 8 * 2 := by
  simp only [fieldB, toNat_append_eq_mul_add, slice_eq_toNat, BitVec.toNat_zero]
  ring

theorem toNat_fieldU (w : Word) : (fieldU w).toNat = slice w 31 12 := (slice_eq_toNat w 31 12).symm

theorem toNat_fieldJ (w : Word) :
    (fieldJ w).toNat = slice w 31 31 * 2 ^ 20 + slice w 19 12 * 2 ^ 12 +
      slice w 20 20 * 2 ^ 11 + slice w 30 21 * 2 := by
  simp only [fieldJ, toNat_append_eq_mul_add, slice_eq_toNat, BitVec.toNat_zero]
  ring

/-! Immediates. -/

/-- A field sign-extended to 32 bits has the value `sext_N` of the field (R61). -/
theorem signed_signExtend {n : ℕ} (f : BitVec n) (hpos : 0 < n) (hle : n ≤ 32) :
    signed (f.signExtend 32) = sext n f.toNat := by
  rw [signed_eq_toInt, BitVec.toInt_signExtend_of_le hle, sext_toNat hpos]

theorem signed_immI (w : Word) : signed (immI w) = sext 12 (fieldI w).toNat :=
  signed_signExtend (fieldI w) (by decide) (by decide)

theorem signed_immS (w : Word) : signed (immS w) = sext 12 (fieldS w).toNat :=
  signed_signExtend (fieldS w) (by decide) (by decide)

theorem signed_immB (w : Word) : signed (immB w) = sext 13 (fieldB w).toNat :=
  signed_signExtend (fieldB w) (by decide) (by decide)

theorem signed_immJ (w : Word) : signed (immJ w) = sext 21 (fieldJ w).toNat :=
  signed_signExtend (fieldJ w) (by decide) (by decide)

theorem toNat_immU (w : Word) : (immU w).toNat = slice w 31 12 * 2 ^ 12 := by
  rw [immU, immediateU, toNat_append_eq_mul_add, toNat_fieldU, BitVec.toNat_zero, Nat.add_zero]

/-- The upper immediate is the word with its low 12 bits cleared (R66). -/
theorem immU_eq_and_mask (w : Word) : immU w = w &&& 0xFFFFF000 := by
  have halves : w = fieldU w ++ w.extractLsb' 0 12 := by
    rw [fieldU, BitVec.extractLsb'_append_extractLsb'_eq_extractLsb' (by rfl)]
    simp
  have mask : (0xFFFFF000 : Word) = BitVec.allOnes 20 ++ 0#12 := by decide
  calc immU w = fieldU w ++ 0#12 := rfl
    _ = (fieldU w ++ w.extractLsb' 0 12) &&& (BitVec.allOnes 20 ++ 0#12) := by
      rw [BitVec.and_append, BitVec.and_allOnes, BitVec.and_zero]
    _ = w &&& 0xFFFFF000 := by rw [← halves, mask]

/-- Settles O9: each immediate extends its field, and each field is the sum of its pieces. -/
theorem immediatesOfEveryWord : Obligations.ImmediatesOfEveryWord := by
  unfold Obligations.ImmediatesOfEveryWord
  intro w
  refine ⟨?immI, ?immS, ?immB, ⟨toNat_immU w, immU_eq_and_mask w⟩, ?immJ⟩
  case immI => rw [signed_immI, toNat_fieldI]
  case immS => rw [signed_immS, toNat_fieldS]
  case immB => rw [signed_immB, toNat_fieldB]
  case immJ => rw [signed_immJ, toNat_fieldJ]

end Sys2Proof
end

section
/-! PROOFS. Dispatch: which words have an entry in the opcode map, said of the six illegal cases, of
the match-and-mask rows and of the decoder, and the step of a running core on a word with an entry
and on one without (spec/30_encoding.md R70 to R76). -/

namespace Sys2Proof

/-- The opcode and the function-select bits of a word stand in the tables of R70 to R75. The six
illegal cases, the rows and the decoder are each compared with it. -/
def HasEntry (w : Word) : Prop :=
  (opcodeOf w = 0x33#7 ∧
    (funct7Of w = 0b0000000#7 ∧ funct3Of w ∈ [0#3, 1#3, 2#3, 4#3, 5#3, 6#3, 7#3] ∨
      funct7Of w = 0b0100000#7 ∧ funct3Of w = 0#3)) ∨
  (opcodeOf w = 0x13#7 ∧
    (funct3Of w ∈ [0#3, 2#3, 4#3, 6#3, 7#3] ∨
      funct3Of w ∈ [1#3, 5#3] ∧ funct7Of w = 0b0000000#7)) ∨
  (opcodeOf w = 0x03#7 ∧ funct3Of w = 2#3) ∨
  (opcodeOf w = 0x23#7 ∧ funct3Of w = 2#3) ∨
  (opcodeOf w = 0x63#7 ∧ funct3Of w ∈ [0#3, 1#3]) ∨
  opcodeOf w ∈ [0x37#7, 0x6F#7, 0x73#7]

/-! The six illegal cases. -/

theorem slice_opcode_eq_iff (w : Word) {n : ℕ} (h : n < 2 ^ 7) :
    slice w 6 0 = n ↔ opcodeOf w = BitVec.ofNat 7 n := by
  rw [← toNat_opcodeOf, ← BitVec.toNat_inj, BitVec.toNat_ofNat, Nat.mod_eq_of_lt h]

theorem slice_funct3_eq_iff (w : Word) {n : ℕ} (h : n < 2 ^ 3) :
    slice w 14 12 = n ↔ funct3Of w = BitVec.ofNat 3 n := by
  rw [← toNat_funct3Of, ← BitVec.toNat_inj, BitVec.toNat_ofNat, Nat.mod_eq_of_lt h]

theorem slice_funct7_eq_iff (w : Word) {n : ℕ} (h : n < 2 ^ 7) :
    slice w 31 25 = n ↔ funct7Of w = BitVec.ofNat 7 n := by
  rw [← toNat_funct7Of, ← BitVec.toNat_inj, BitVec.toNat_ofNat, Nat.mod_eq_of_lt h]

/-- Every `funct3` value stands in the register-immediate table but 011 (R71). -/
theorem funct3_eq_three_iff (f : BitVec 3) :
    f = 3#3 ↔ f ∉ [0#3, 2#3, 4#3, 6#3, 7#3] ∧ f ∉ [1#3, 5#3] := by
  revert f; decide

/-- The six cases say that the opcode is none of the eight, or of each opcode that the word is
outside its table. -/
theorem illegalWord_iff_not_hasEntry (w : Word) : IllegalWord w ↔ ¬HasEntry w := by
  unfold IllegalWord HasEntry
  simp (disch := decide) only [ne_eq, List.mem_cons, List.not_mem_nil, or_false,
    slice_opcode_eq_iff, slice_funct3_eq_iff, slice_funct7_eq_iff]
  by_cases h : opcodeOf w ∈ [0x33#7, 0x13#7, 0x03#7, 0x23#7, 0x63#7, 0x37#7, 0x6F#7, 0x73#7]
  case neg => simp_all
  case pos =>
    simp only [List.mem_cons, List.not_mem_nil, or_false] at h
    rcases h with regReg | regImm | load | store | branch | lui | jal | ecall
    · simp [regReg]
    · simp [regImm, funct3_eq_three_iff]; grind
    · simp [load]
    · simp [store]
    · simp [branch]
    · simp [lui]
    · simp [jal]
    · simp [ecall]

/-! The rows. -/

theorem opcodeOf_and {m : Word} (h : opcodeOf m = BitVec.allOnes 7) (w : Word) :
    opcodeOf (w &&& m) = opcodeOf w := by
  rw [opcodeOf, BitVec.extractLsb'_and, ← opcodeOf, ← opcodeOf, h, BitVec.and_allOnes]

theorem funct3Of_and {m : Word} (h : funct3Of m = BitVec.allOnes 3) (w : Word) :
    funct3Of (w &&& m) = funct3Of w := by
  rw [funct3Of, BitVec.extractLsb'_and, ← funct3Of, ← funct3Of, h, BitVec.and_allOnes]

theorem funct7Of_and {m : Word} (h : funct7Of m = BitVec.allOnes 7) (w : Word) :
    funct7Of (w &&& m) = funct7Of w := by
  rw [funct7Of, BitVec.extractLsb'_and, ← funct7Of, ← funct7Of, h, BitVec.and_allOnes]

theorem and_mask_opcode_eq_iff (w : Word) {p : Word} (hp : p &&& 0x0000007F = p) :
    w &&& 0x0000007F = p ↔ opcodeOf w = opcodeOf p := by
  constructor
  · rintro rfl
    exact (opcodeOf_and (by decide) w).symm
  · intro hop
    rw [← hp, and_mask_opcode, and_mask_opcode, hop]

theorem and_mask_funct3_eq_iff (w : Word) {p : Word} (hp : p &&& 0x0000707F = p) :
    w &&& 0x0000707F = p ↔ opcodeOf w = opcodeOf p ∧ funct3Of w = funct3Of p := by
  constructor
  · rintro rfl
    exact ⟨(opcodeOf_and (by decide) w).symm, (funct3Of_and (by decide) w).symm⟩
  · rintro ⟨hop, h3⟩
    rw [← hp, and_mask_funct3, and_mask_funct3, hop, h3]

theorem and_mask_funct7_eq_iff (w : Word) {p : Word} (hp : p &&& 0xFE00707F = p) :
    w &&& 0xFE00707F = p ↔
      opcodeOf w = opcodeOf p ∧ funct3Of w = funct3Of p ∧ funct7Of w = funct7Of p := by
  constructor
  · rintro rfl
    exact ⟨(opcodeOf_and (by decide) w).symm, (funct3Of_and (by decide) w).symm,
      (funct7Of_and (by decide) w).symm⟩
  · rintro ⟨hop, h3, h7⟩
    rw [← hp, and_mask_funct7, and_mask_funct7, hop, h3, h7]

/-- The 22 match-and-mask rows, each read as the fields it fixes, are the entries. -/
theorem exists_row_matches_iff_hasEntry (w : Word) :
    (∃ r ∈ opcodeRows, r.matches w) ↔ HasEntry w := by
  unfold HasEntry
  simp (disch := decide) only [opcodeRows, rowOf, OpcodeRow.matches, List.mem_cons,
    List.not_mem_nil, or_false, exists_eq_or_imp, exists_eq_left, and_mask_opcode_eq_iff,
    and_mask_funct3_eq_iff, and_mask_funct7_eq_iff]
  generalize opcodeOf w = op, funct3Of w = f3, funct7Of w = f7
  simp only [opcodeOf, funct3Of, funct7Of, BitVec.reduceExtractLsb', BitVec.ofNat_eq_ofNat]
  grind

/-! The decoder. -/

theorem exists_decodeRegReg_eq_ok_iff (w : Word) : (∃ i, decodeRegReg w = .ok i) ↔
    funct7Of w = 0b0000000#7 ∧ funct3Of w ∈ [0#3, 1#3, 2#3, 4#3, 5#3, 6#3, 7#3] ∨
      funct7Of w = 0b0100000#7 ∧ funct3Of w = 0#3 := by
  unfold decodeRegReg
  split <;> simp_all

theorem exists_decodeShiftImm_eq_ok_iff (w : Word) (j : Instr) :
    (∃ i, decodeShiftImm w j = .ok i) ↔ funct7Of w = 0b0000000#7 := by
  by_cases h : funct7Of w = 0b0000000#7 <;> simp [decodeShiftImm, h]

theorem exists_decodeRegImm_eq_ok_iff (w : Word) : (∃ i, decodeRegImm w = .ok i) ↔
    funct3Of w ∈ [0#3, 2#3, 4#3, 6#3, 7#3] ∨
      funct3Of w ∈ [1#3, 5#3] ∧ funct7Of w = 0b0000000#7 := by
  unfold decodeRegImm
  split <;> simp_all [exists_decodeShiftImm_eq_ok_iff]

theorem exists_decodeLoad_eq_ok_iff (w : Word) :
    (∃ i, decodeLoad w = .ok i) ↔ funct3Of w = 2#3 := by
  by_cases h : funct3Of w = 2#3 <;> simp [decodeLoad, h]

theorem exists_decodeStore_eq_ok_iff (w : Word) :
    (∃ i, decodeStore w = .ok i) ↔ funct3Of w = 2#3 := by
  by_cases h : funct3Of w = 2#3 <;> simp [decodeStore, h]

theorem exists_decodeBranch_eq_ok_iff (w : Word) :
    (∃ i, decodeBranch w = .ok i) ↔ funct3Of w ∈ [0#3, 1#3] := by
  unfold decodeBranch
  split <;> simp_all

/-- The decoder answers an instruction exactly for the words with an entry, opcode by opcode. -/
theorem exists_decode_eq_ok_iff_hasEntry (w : Word) : (∃ i, decode w = .ok i) ↔ HasEntry w := by
  unfold decode HasEntry
  split
  case h_1 h => simp [h, exists_decodeRegReg_eq_ok_iff]
  case h_2 h => simp [h, exists_decodeRegImm_eq_ok_iff]
  case h_3 h => simp [h, exists_decodeLoad_eq_ok_iff]
  case h_4 h => simp [h, exists_decodeStore_eq_ok_iff]
  case h_5 h => simp [h, exists_decodeBranch_eq_ok_iff]
  case h_6 h => simp [h]
  case h_7 h => simp [h]
  case h_8 h => simp [h]
  case h_9 => simp_all

theorem exists_decode_eq_ok_of_not_illegalWord {w : Word} (h : ¬IllegalWord w) :
    ∃ i, decode w = .ok i := by
  rwa [exists_decode_eq_ok_iff_hasEntry, ← not_not (a := HasEntry w),
    ← illegalWord_iff_not_hasEntry]

theorem exists_decode_eq_error_of_illegalWord {w : Word} (h : IllegalWord w) :
    ∃ e, decode w = .error e := by
  rw [illegalWord_iff_not_hasEntry, ← exists_decode_eq_ok_iff_hasEntry] at h
  cases hd : decode w with
  | ok i => exact absurd ⟨i, hd⟩ h
  | error e => exact ⟨e, rfl⟩

/-- A word is in one of the six illegal cases exactly when it matches no row (R76). -/
theorem illegalWord_iff_forall_not_matches (w : Word) :
    IllegalWord w ↔ ∀ r ∈ opcodeRows, ¬r.matches w := by
  rw [illegalWord_iff_not_hasEntry, ← exists_row_matches_iff_hasEntry]
  simp only [not_exists, not_and]

namespace Machine

/-! The step. -/

/-- A running core performs the instruction that the word at its pc decodes to. -/
theorem step_of_decode_ok {s : State} {i : Instr} (hr : s.status = .running)
    (hpc : s.pc.toNat + 4 ≤ s.cfg.memCapacity) (hd : decode (wordAt s s.pc.toNat) = .ok i) :
    step s = exec i s := by
  simp only [step, hr, fetchInstr_of_ok hpc hd]

/-- A running core records DecodeError with the opcode of a word that decodes to none (R76, R92). -/
theorem step_of_decode_error {s : State} {e : DecodeReject} (hr : s.status = .running)
    (hpc : s.pc.toNat + 4 ≤ s.cfg.memCapacity) (hd : decode (wordAt s s.pc.toNat) = .error e) :
    step s = .next (s.raiseFault (.decodeError (opcodeOf (wordAt s s.pc.toNat)))) := by
  simp only [step, hr, fetchInstr_of_error hpc hd]

/-- Settles O7: the six cases and the rows are the same entries, and the step follows the decoder,
which refuses exactly the words without one. -/
theorem illegalWordsRaiseDecodeError : Obligations.IllegalWordsRaiseDecodeError := by
  unfold Obligations.IllegalWordsRaiseDecodeError
  refine ⟨illegalWord_iff_forall_not_matches, fun s ⟨hr, _⟩ hpc => ⟨fun hill => ?illegal,
    fun hleg => ?legal⟩⟩
  case illegal =>
    obtain ⟨e, hd⟩ := exists_decode_eq_error_of_illegalWord hill
    rw [step_of_decode_error hr hpc hd, ← (slice_opcode_eq_iff _ (slice_lt _ 6 0)).1 rfl]
    rfl
  case legal =>
    obtain ⟨i, hd⟩ := exists_decode_eq_ok_of_not_illegalWord hleg
    exact ⟨i, hd, step_of_decode_ok hr hpc hd⟩

end Machine

end Sys2Proof
end

section
/-! PROOFS. The instruction cycle: the word the fetch reads, and the pc that each instruction leaves
(spec/40_instruction_cycle.md R86, R89). -/

namespace Sys2Proof.Machine

/-! The fetch. -/

/-- The fetch of a word that does not lie whole in memory raises OutOfBounds (R86). -/
theorem fetchWord_of_overflow {s : State} (h : s.cfg.memCapacity < s.pc.toNat + 4) :
    s.fetchWord = .error (.outOfBounds s.pc 4 .fetch) := by
  have hover : ¬s.pc.toNat + Width.word.bytes ≤ s.cfg.memCapacity := Nat.not_le_of_lt h
  rw [State.fetchWord, memRead_eq, if_neg hover, Width.bytes]

/-- Settles O17: outside memory the fetch faults, and inside it reads the word at the pc, which is its
four bytes side by side. -/
theorem fetchReadsTheWordAtThePc : Obligations.FetchReadsTheWordAtThePc := by
  unfold Obligations.FetchReadsTheWordAtThePc
  refine fun s => ⟨fetchWord_of_overflow, fun hfit => ?_⟩
  rw [fetchWord_eq hfit, wordAt_eq_append]

/-! The candidates for the next pc, in the integers of the spec. -/

theorem pcPlus4_eq_u32 (s : State) : s.pcPlus4 = u32 (s.pc.toNat + 4) :=
  (u32_toNat_add_four s.pc).symm

theorem branchTarget_eq_u32 (s : State) (offset : BitVec 13) :
    branchTarget s offset = u32 (s.pc.toNat + sext 13 offset.toNat) :=
  (u32_toNat_add_sext (by decide) s.pc offset).symm

theorem jumpTarget_eq_u32 (s : State) (offset : BitVec 21) :
    jumpTarget s offset = u32 (s.pc.toNat + sext 21 offset.toNat) :=
  (u32_toNat_add_sext (by decide) s.pc offset).symm

/-- The condition of the branches is equality of the two values (spec/44_branch.md R122). -/
theorem sameValue_iff (a b : Word) : sameValue a b = true ↔ a = b := beq_iff_eq

/-! The pc by how the instruction ended. -/

/-- An instruction that ended by completing left the pc it completed with (R85). -/
theorem pc_of_next_complete {u t : State} {p : Word}
    (h : (.next (u.complete p) : Host.Outcome State Fault Refusal) = .next t) : t.pc = p := by
  cases h
  rfl

/-- "Every other case" of R89. The state `u` is what the instruction made of registers, memory and
halt flag before it completed; the pc comes from the state `s` the step began with. -/
theorem pc_of_next_pcPlus4 {s u t : State}
    (h : (.next (u.complete s.pcPlus4) : Host.Outcome State Fault Refusal) = .next t) :
    t.pc = u32 (s.pc.toNat + 4) :=
  (pc_of_next_complete h).trans (pcPlus4_eq_u32 s)

/-- An instruction that ended by raising left a Faulted core (spec/60_exceptions.md R139). -/
theorem status_of_next_raiseFault {s t : State} {f : Fault}
    (h : (.next (s.raiseFault f) : Host.Outcome State Fault Refusal) = .next t) :
    t.status = .faulted f := by
  cases h
  rfl

/-- Settles O22, by how each instruction ends: JAL completes with its target, a branch with the target
its condition chooses, LW and SW complete with `pc + 4` or have raised a fault, and every other
instruction completes with `pc + 4`. -/
theorem pcUpdateOfEveryInstruction : Obligations.PcUpdateOfEveryInstruction := by
  unfold Obligations.PcUpdateOfEveryInstruction
  intro i s t _ hexec hnofault
  cases i with
  | add | sub | sll | slt | xor | srl | or | and
  | addi | slli | slti | xori | srli | ori | andi
  | lui | ecall => exact pc_of_next_pcPlus4 hexec
  | jal rd offset => exact (pc_of_next_complete hexec).trans (jumpTarget_eq_u32 s offset)
  | beq rs1 rs2 offset =>
    have hpc := pc_of_next_complete hexec
    simpa only [sameValue_iff, branchTarget_eq_u32, pcPlus4_eq_u32] using hpc
  | bne rs1 rs2 offset =>
    have hpc := pc_of_next_complete hexec
    simpa only [sameValue_iff, branchTarget_eq_u32, pcPlus4_eq_u32, ne_eq, ite_not] using hpc
  | lw rd rs1 imm =>
    obtain ⟨_, hfault⟩ | ⟨_, hdone⟩ := execLw_cases rd rs1 imm s
    · exact absurd (status_of_next_raiseFault (hfault.symm.trans hexec)) (hnofault _)
    · exact pc_of_next_pcPlus4 (hdone.symm.trans hexec)
  | sw rs2 rs1 imm =>
    obtain ⟨_, hfault⟩ | ⟨_, hdone⟩ := execSw_cases rs2 rs1 imm s
    · exact absurd (status_of_next_raiseFault (hfault.symm.trans hexec)) (hnofault _)
    · exact pc_of_next_pcPlus4 (hdone.symm.trans hexec)

end Sys2Proof.Machine
end

section
/-! PROOFS. An instruction whose whole effect is a register write and `pc + 4`: what it leaves, in the
terms of the statements (spec/41_alu_register.md R98). -/

namespace Sys2Proof.Machine

/-- From a running core, `finishWith` is the register write and the pc, and the status stays Running
because the halt flag is clear (spec/40_instruction_cycle.md R85). -/
theorem finishWith_writesRegister {s : State} (hs : s.Active) (rd : RegIdx) (v : Word) :
    WritesRegister s (s.finishWith rd v) rd v (u32 (s.pc.toNat + 4)) where
  registers i := by rw [State.finishWith, readReg_complete, readReg_writeReg_policy]
  pc := (finishWith_pc s rd v).trans (pcPlus4_eq_u32 s)
  rest :=
    { memory := fun a => by rw [finishWith_mem]
      halted := finishWith_halted s rd v
      status := by rw [finishWith_status, hs.2]; rfl
      parameters := finishWith_cfg s rd v }

/-- An instruction that ends with `finishWith` completes with the register write. -/
theorem exists_writesRegister_of_exec {s : State} {i : Instr} {rd : RegIdx} {v : Word}
    (hs : s.Active) (hexec : exec i s = .next (s.finishWith rd v)) :
    ∃ t, exec i s = .next t ∧ WritesRegister s t rd v (u32 (s.pc.toNat + 4)) :=
  ⟨_, hexec, finishWith_writesRegister hs rd v⟩

section

variable {s t : State} {rd i : RegIdx} {v nextPc : Word}

/-- A core that wrote a register may take the next step. -/
theorem WritesRegister.active (h : WritesRegister s t rd v nextPc) (hs : s.Active) : t.Active :=
  ⟨h.rest.status.trans hs.1, h.rest.halted.trans hs.2⟩

theorem WritesRegister.readReg_destination (h : WritesRegister s t rd v nextPc)
    (hw : ¬(s.cfg.x0Hardwired = true ∧ rd = 0)) : t.readReg rd = v := by
  rw [h.registers, if_pos ⟨rfl, hw⟩]

theorem WritesRegister.readReg_of_ne (h : WritesRegister s t rd v nextPc) (hi : i ≠ rd) :
    t.readReg i = s.readReg i := by
  rw [h.registers, if_neg (hi ·.1)]

end

end Sys2Proof.Machine
end

section
/-! PROOFS. ADD SUB SLL SLT XOR SRL OR AND: the words they are encoded in, their results in the
integers of the spec, and their statements (spec/41_alu_register.md R99 to R107). -/

namespace Sys2Proof

/-! The words of the group. -/

/-- A word written out field by field as R99 to R106 write it is one of the encoder's. -/
theorem regRegWord_eq_encodeR (f7 : BitVec 7) (f3 : BitVec 3) (rd rs1 rs2 : RegIdx) :
    f7 ++ reg5 rs2 ++ reg5 rs1 ++ f3 ++ reg5 rd ++ 0b0110011#7 = encodeR f7 f3 rd rs1 rs2 := by
  simp only [reg5_eq_regBits, encodeR]

/-- The dispatch sends every word of the format to the register-register table (R70). -/
theorem decode_regRegWord (f7 : BitVec 7) (f3 : BitVec 3) (rd rs1 rs2 : RegIdx) :
    decode (f7 ++ reg5 rs2 ++ reg5 rs1 ++ f3 ++ reg5 rd ++ 0b0110011#7) =
      decodeRegReg (encodeR f7 f3 rd rs1 rs2) := by
  simp only [regRegWord_eq_encodeR, decode, opcodeOf_encodeR]

/-- The base encoding's arithmetic right shift stands in no table (R104). -/
theorem illegalWord_sra (rd rs1 rs2 : RegIdx) :
    IllegalWord (encodeR 0b0100000#7 0b101#3 rd rs1 rs2) := by
  rw [illegalWord_iff_not_hasEntry]
  simp [HasEntry]

/-- The base encoding's multiply and divide words, `funct7` 0000001, stand in no table: the second of
the six cases (R76, R107). -/
theorem illegalWord_of_muldiv {w : Word} (hop : slice w 6 0 = 0x33) (h7 : slice w 31 25 = 1) :
    IllegalWord w :=
  .inr (.inl ⟨hop, fun h => by omega, fun h => by omega⟩)

/-! Shifts. -/

theorem u32_toNat_mul_two_pow (a : Word) (n : ℕ) : u32 (a.toNat * 2 ^ n) = a <<< n := by
  apply BitVec.eq_of_toNat_eq
  rw [BitVec.toNat_shiftLeft, Nat.shiftLeft_eq, ← BitVec.toNat_ofNat, ← u32_natCast]
  push_cast
  rfl

theorem u32_toNat_div_two_pow (a : Word) (n : ℕ) : u32 (a.toNat / 2 ^ n : ℕ) = a >>> n := by
  rw [← Nat.shiftRight_eq_div_pow, ← BitVec.toNat_ushiftRight, u32_toNat]

/-! The two orderings. -/

/-- Bit 31 is the sign: it tells on which side of `2^31` the value lies. -/
theorem slice_sign (v : Word) : slice v 31 31 = if v.toNat < 2 ^ 31 then 0 else 1 := by
  have := v.isLt
  unfold slice
  split <;> omega

/-- Values of the same sign are ordered alike by both readings, values of different signs never
(R102). -/
theorem signed_lt_agrees_iff (a b : Word) :
    ((signed a < signed b ↔ a.toNat < b.toNat) ↔ slice a 31 31 = slice b 31 31) := by
  have ha := a.isLt
  have hb := b.isLt
  rw [slice_sign, slice_sign, signed, signed]
  by_cases hsa : a.toNat < 2 ^ 31 <;> by_cases hsb : b.toNat < 2 ^ 31 <;>
    simp only [hsa, hsb, if_true, if_false, iff_true] <;> omega

namespace Machine

theorem registerShift_eq_slice (v : Word) : registerShift v = slice v 4 0 :=
  (slice_eq_toNat v 4 0).symm

/-- The ordering that SLT_SIGNED selects, in the integers of R12 (R102). -/
theorem lessThan_iff (cfg : Config) (a b : Word) :
    lessThan cfg a b = true ↔
      if cfg.sltSigned = true then signed a < signed b else a.toNat < b.toNat := by
  rw [lessThan, signed_eq_toInt, signed_eq_toInt]
  split
  · exact BitVec.slt_iff_toInt_lt
  · exact BitVec.ult_iff_toNat_lt

theorem truthWord_eq_ite {b : Bool} {p : Prop} [Decidable p] (h : b = true ↔ p) :
    truthWord b = if p then 1 else 0 := by
  simp only [truthWord, h]

/-! The statements. -/

/-- Settles O27: the table's ADD entry, and the sum of the sources written to `x[rd]`. -/
theorem addWritesTheSum : Obligations.AddWritesTheSum := by
  unfold Obligations.AddWritesTheSum
  intro rd rs1 rs2 s hs
  rw [decode_regRegWord, u32_toNat_add_toNat]
  exact ⟨by simp [decodeRegReg], exists_writesRegister_of_exec hs rfl⟩

/-- Settles O28: the table's SUB entry, and the difference of the sources written to `x[rd]`. -/
theorem subWritesTheDifference : Obligations.SubWritesTheDifference := by
  unfold Obligations.SubWritesTheDifference
  intro rd rs1 rs2 s hs
  rw [decode_regRegWord, u32_toNat_sub_toNat]
  exact ⟨by simp [decodeRegReg], exists_writesRegister_of_exec hs rfl⟩

/-- Settles O29: the table's SLL entry, and the shift by the amount of D8 as a product with a power
of 2. -/
theorem sllShiftsLeft : Obligations.SllShiftsLeft := by
  unfold Obligations.SllShiftsLeft
  intro rd rs1 rs2 s hs
  rw [decode_regRegWord, u32_toNat_mul_two_pow, ← registerShift_eq_slice]
  exact ⟨by simp [decodeRegReg], exists_writesRegister_of_exec hs rfl⟩

/-- Settles O30: the table's SLT entry, the truth value of the selected ordering written to `x[rd]`,
and the sign bits as what makes the two orderings differ. -/
theorem sltSetsOnLess : Obligations.SltSetsOnLess := by
  unfold Obligations.SltSetsOnLess
  intro rd rs1 rs2 s hs
  rw [decode_regRegWord, ← truthWord_eq_ite (lessThan_iff s.cfg (s.readReg rs1) (s.readReg rs2))]
  exact ⟨by simp [decodeRegReg], exists_writesRegister_of_exec hs rfl, signed_lt_agrees_iff _ _⟩

/-- Settles O31: the table's XOR entry, and the exclusive or of the sources written to `x[rd]`. -/
theorem xorWritesExclusiveOr : Obligations.XorWritesExclusiveOr := by
  unfold Obligations.XorWritesExclusiveOr
  intro rd rs1 rs2 s hs
  rw [decode_regRegWord]
  exact ⟨by simp [decodeRegReg], exists_writesRegister_of_exec hs rfl⟩

/-- Settles O32: the table's SRL entry, no entry for the arithmetic shift, and the shift by the amount
of D8 as a floor division. -/
theorem srlShiftsRight : Obligations.SrlShiftsRight := by
  unfold Obligations.SrlShiftsRight
  intro rd rs1 rs2 s hs
  refine ⟨?encoding, ?noArithmeticShift, ?completes⟩
  case encoding => rw [decode_regRegWord]; simp [decodeRegReg]
  case noArithmeticShift =>
    rw [regRegWord_eq_encodeR]
    exact exists_decode_eq_error_of_illegalWord (illegalWord_sra rd rs1 rs2)
  case completes =>
    rw [u32_toNat_div_two_pow, ← registerShift_eq_slice]
    exact exists_writesRegister_of_exec hs rfl

/-- Settles O33: the table's OR entry, and the inclusive or of the sources written to `x[rd]`. -/
theorem orWritesInclusiveOr : Obligations.OrWritesInclusiveOr := by
  unfold Obligations.OrWritesInclusiveOr
  intro rd rs1 rs2 s hs
  rw [decode_regRegWord]
  exact ⟨by simp [decodeRegReg], exists_writesRegister_of_exec hs rfl⟩

/-- Settles O34: the table's AND entry, and the conjunction of the sources written to `x[rd]`. -/
theorem andWritesConjunction : Obligations.AndWritesConjunction := by
  unfold Obligations.AndWritesConjunction
  intro rd rs1 rs2 s hs
  rw [decode_regRegWord]
  exact ⟨by simp [decodeRegReg], exists_writesRegister_of_exec hs rfl⟩

/-- Settles O49: ADD leaves `x[rs2]` as it was and the sum in `x[rd]`, from which SUB takes `x[rs2]`
again; a hard-wired `x[rd]` reads 0 after both. A multiply or divide word is an illegal word. -/
theorem addThenSubRestores : Obligations.AddThenSubRestores := by
  unfold Obligations.AddThenSubRestores
  refine ⟨fun rd rs1 rs2 s hs hne => ?restores, fun w hop h7 =>
    exists_decode_eq_error_of_illegalWord (illegalWord_of_muldiv hop h7)⟩
  obtain ⟨t, hadd, ht⟩ : ∃ t, exec (.add rd rs1 rs2) s = .next t ∧
      WritesRegister s t rd (s.readReg rs1 + s.readReg rs2) _ :=
    exists_writesRegister_of_exec hs rfl
  obtain ⟨u, hsub, hu⟩ : ∃ u, exec (.sub rd rd rs2) t = .next u ∧
      WritesRegister t u rd (t.readReg rd - t.readReg rs2) _ :=
    exists_writesRegister_of_exec (ht.active hs) rfl
  refine ⟨t, u, hadd, hsub, ?_⟩
  have hcfg : u.cfg = s.cfg := hu.rest.parameters.trans ht.rest.parameters
  split
  case isTrue hwired => exact readReg_hardwired ((isHardwired_iff u rd).2 (by rwa [hcfg]))
  case isFalse hwritten =>
    calc u.readReg rd
        = t.readReg rd - t.readReg rs2 :=
          hu.readReg_destination (by rwa [ht.rest.parameters])
      _ = s.readReg rs1 + s.readReg rs2 - s.readReg rs2 := by
          rw [ht.readReg_destination hwritten, ht.readReg_of_ne hne.symm]
      _ = s.readReg rs1 := add_sub_cancel_right _ _

end Machine

end Sys2Proof
end

section
/-! PROOFS. ADDI SLLI SLTI XORI SRLI ORI ANDI: the words they are encoded in, their immediates in
the integers of the spec, and their statements (spec/42_alu_immediate.md R109 to R115). -/

namespace Sys2Proof

/-! The words of the group. -/

/-- A word written out field by field as R109 to R115 write it is one of the encoder's. -/
theorem regImmWord_eq_encodeI (f3 : BitVec 3) (rd rs1 : RegIdx) (imm : BitVec 12) :
    imm ++ reg5 rs1 ++ f3 ++ reg5 rd ++ 0b0010011#7 = encodeI 0x13#7 f3 rd rs1 imm := by
  simp only [reg5_eq_regBits, encodeI]

/-- The shift form of R59 is the I format with `word[31:25]` and the shift amount as its immediate
field. -/
theorem shiftImmWord_eq_encodeI (f7 : BitVec 7) (f3 : BitVec 3) (rd rs1 : RegIdx)
    (shamt : BitVec 5) : f7 ++ shamt ++ reg5 rs1 ++ f3 ++ reg5 rd ++ 0b0010011#7 =
      encodeI 0x13#7 f3 rd rs1 (f7 ++ shamt) :=
  regImmWord_eq_encodeI f3 rd rs1 (f7 ++ shamt)

/-- The dispatch sends every word of the format to the register-immediate table (R71). -/
theorem decode_regImmWord (f3 : BitVec 3) (rd rs1 : RegIdx) (imm : BitVec 12) :
    decode (imm ++ reg5 rs1 ++ f3 ++ reg5 rd ++ 0b0010011#7) =
      decodeRegImm (encodeI 0x13#7 f3 rd rs1 imm) := by
  simp only [regImmWord_eq_encodeI, decode, opcodeOf_encodeI]

/-- `decode_regImmWord` for the shift form. -/
theorem decode_shiftImmWord (f7 : BitVec 7) (f3 : BitVec 3) (rd rs1 : RegIdx) (shamt : BitVec 5) :
    decode (f7 ++ shamt ++ reg5 rs1 ++ f3 ++ reg5 rd ++ 0b0010011#7) =
      decodeRegImm (encodeI 0x13#7 f3 rd rs1 (f7 ++ shamt)) :=
  decode_regImmWord f3 rd rs1 (f7 ++ shamt)

/-- `word[31:25]` is the upper part of `word[31:20]` (R57, R63). -/
theorem funct7Of_eq_extractLsb'_fieldI (w : Word) : funct7Of w = (fieldI w).extractLsb' 5 7 := by
  ext i hi
  simp [fieldI, funct7Of]
  grind

/-- `word[24:20]` is the lower part of `word[31:20]` (R57, R63). -/
theorem shamtOf_eq_extractLsb'_fieldI (w : Word) : shamtOf w = (fieldI w).extractLsb' 0 5 := by
  ext i hi
  simp [fieldI, shamtOf]
  grind

@[simp] theorem funct7Of_encodeI_append (op f7 : BitVec 7) (f3 : BitVec 3) (rd rs1 : RegIdx)
    (shamt : BitVec 5) : funct7Of (encodeI op f3 rd rs1 (f7 ++ shamt)) = f7 := by
  rw [funct7Of_eq_extractLsb'_fieldI, fieldI_encodeI]
  exact BitVec.extractLsb'_append_eq_left

@[simp] theorem shamtOf_encodeI_append (op f7 : BitVec 7) (f3 : BitVec 3) (rd rs1 : RegIdx)
    (shamt : BitVec 5) : shamtOf (encodeI op f3 rd rs1 (f7 ++ shamt)) = shamt := by
  rw [shamtOf_eq_extractLsb'_fieldI, fieldI_encodeI]
  exact BitVec.extractLsb'_append_eq_right

/-- A shift by a constant with any other `word[31:25]` than 0000000 stands in no table, whatever its
shift amount (R71, R76). -/
theorem illegalWord_shiftImm {f7 : BitVec 7} {f3 : BitVec 3} (h7 : f7 ≠ 0#7)
    (h3 : f3 ∈ [1#3, 5#3]) (rd rs1 : RegIdx) (shamt : BitVec 5) :
    IllegalWord (encodeI 0x13#7 f3 rd rs1 (f7 ++ shamt)) := by
  have hne : f3 ∉ [0#3, 2#3, 4#3, 6#3, 7#3] := by revert f3; decide
  rw [illegalWord_iff_not_hasEntry]
  simp [HasEntry, h7, hne]

theorem exists_decode_shiftImmWord_eq_error {f7 : BitVec 7} {f3 : BitVec 3} (h7 : f7 ≠ 0#7)
    (h3 : f3 ∈ [1#3, 5#3]) (rd rs1 : RegIdx) (shamt : BitVec 5) :
    ∃ e, decode (f7 ++ shamt ++ reg5 rs1 ++ f3 ++ reg5 rd ++ 0b0010011#7) = .error e := by
  rw [shiftImmWord_eq_encodeI]
  exact exists_decode_eq_error_of_illegalWord (illegalWord_shiftImm h7 h3 rd rs1 shamt)

/-! Immediates. -/

/-- `u32(immI)`, the second operand of the group (R63, R108). -/
theorem u32_sext_eq_immediate12 (imm : BitVec 12) : u32 (sext 12 imm.toNat) = immediate12 imm :=
  u32_sext (by decide) imm

theorem signed_immediate12 (imm : BitVec 12) : signed (immediate12 imm) = sext 12 imm.toNat :=
  signed_signExtend imm (by decide) (by decide)

/-- `u32(x[rs1] + immI)` (R109). -/
theorem u32_toNat_add_sext12 (a : Word) (imm : BitVec 12) :
    u32 (a.toNat + sext 12 imm.toNat) = a + immediate12 imm :=
  u32_toNat_add_sext (by decide) a imm

namespace Machine

/-- The ordering that SLT_SIGNED selects, against the sign-extended immediate: as an integer it is
`immI`, as a natural number its 32-bit value (R111). -/
theorem lessThan_immediate12_iff (cfg : Config) (a : Word) (imm : BitVec 12) :
    lessThan cfg a (immediate12 imm) = true ↔
      if cfg.sltSigned = true then signed a < sext 12 imm.toNat
      else a.toNat < (u32 (sext 12 imm.toNat)).toNat := by
  rw [lessThan_iff, signed_immediate12, u32_sext_eq_immediate12]

/-! The statements. -/

/-- Settles O35: the table's ADDI entry, whose immediate is all of `word[31:20]`, and the sum
written to `x[rd]`. -/
theorem addiWritesTheSum : Obligations.AddiWritesTheSum := by
  unfold Obligations.AddiWritesTheSum
  intro rd rs1 imm s hs
  rw [decode_regImmWord, u32_toNat_add_sext12]
  exact ⟨by simp [decodeRegImm], exists_writesRegister_of_exec hs rfl⟩

/-- Settles O36: the table's SLLI entry, no entry with other bits above the shift amount, and the
shift as a product with a power of 2. -/
theorem slliShiftsLeft : Obligations.SlliShiftsLeft := by
  unfold Obligations.SlliShiftsLeft
  intro rd rs1 shamt s hs
  refine ⟨?encoding, fun f7 h7 => exists_decode_shiftImmWord_eq_error h7 (by decide) rd rs1 shamt,
    ?completes⟩
  case encoding => rw [decode_shiftImmWord]; simp [decodeRegImm, decodeShiftImm]
  case completes =>
    rw [u32_toNat_mul_two_pow]
    exact exists_writesRegister_of_exec hs rfl

/-- Settles O37: the table's SLTI entry, and the truth value of the selected ordering against the
sign-extended immediate written to `x[rd]`. -/
theorem sltiSetsOnLess : Obligations.SltiSetsOnLess := by
  unfold Obligations.SltiSetsOnLess
  intro rd rs1 imm s hs
  rw [decode_regImmWord, ← truthWord_eq_ite (lessThan_immediate12_iff s.cfg (s.readReg rs1) imm)]
  exact ⟨by simp [decodeRegImm], exists_writesRegister_of_exec hs rfl⟩

/-- Settles O38: the table's XORI entry, and the exclusive or with the sign-extended immediate
written to `x[rd]`. -/
theorem xoriWritesExclusiveOr : Obligations.XoriWritesExclusiveOr := by
  unfold Obligations.XoriWritesExclusiveOr
  intro rd rs1 imm s hs
  rw [decode_regImmWord, u32_sext_eq_immediate12]
  exact ⟨by simp [decodeRegImm], exists_writesRegister_of_exec hs rfl⟩

/-- Settles O39: the table's SRLI entry, no entry with other bits above the shift amount, and the
shift as a floor division. -/
theorem srliShiftsRight : Obligations.SrliShiftsRight := by
  unfold Obligations.SrliShiftsRight
  intro rd rs1 shamt s hs
  refine ⟨?encoding, fun f7 h7 => exists_decode_shiftImmWord_eq_error h7 (by decide) rd rs1 shamt,
    ?completes⟩
  case encoding => rw [decode_shiftImmWord]; simp [decodeRegImm, decodeShiftImm]
  case completes =>
    rw [u32_toNat_div_two_pow]
    exact exists_writesRegister_of_exec hs rfl

/-- Settles O40: the table's ORI entry, and the inclusive or with the sign-extended immediate
written to `x[rd]`. -/
theorem oriWritesInclusiveOr : Obligations.OriWritesInclusiveOr := by
  unfold Obligations.OriWritesInclusiveOr
  intro rd rs1 imm s hs
  rw [decode_regImmWord, u32_sext_eq_immediate12]
  exact ⟨by simp [decodeRegImm], exists_writesRegister_of_exec hs rfl⟩

/-- Settles O41: the table's ANDI entry, and the conjunction with the sign-extended immediate
written to `x[rd]`. -/
theorem andiWritesConjunction : Obligations.AndiWritesConjunction := by
  unfold Obligations.AndiWritesConjunction
  intro rd rs1 imm s hs
  rw [decode_regImmWord, u32_sext_eq_immediate12]
  exact ⟨by simp [decodeRegImm], exists_writesRegister_of_exec hs rfl⟩

end Machine

end Sys2Proof
end

section
/-! PROOFS. LW and SW: the words they are encoded in, what each does inside and outside memory, and
their statements (spec/43_load_store.md R118, R119). -/

namespace Sys2Proof

/-! The words of the group. -/

/-- The dispatch sends a word written out field by field as R118 writes it to the load table (R72). -/
theorem decode_loadWord (f3 : BitVec 3) (rd rs1 : RegIdx) (imm : BitVec 12) :
    decode (imm ++ reg5 rs1 ++ f3 ++ reg5 rd ++ 0b0000011#7) =
      decodeLoad (encodeI 0x03#7 f3 rd rs1 imm) := by
  have hword : imm ++ reg5 rs1 ++ f3 ++ reg5 rd ++ 0b0000011#7 = encodeI 0x03#7 f3 rd rs1 imm := by
    simp only [reg5_eq_regBits, encodeI]
  simp only [hword, decode, opcodeOf_encodeI]

/-- The dispatch sends a word written out field by field as R119 writes it to the store table
(R73). -/
theorem decode_storeWord (f3 : BitVec 3) (rs2 rs1 : RegIdx) (imm : BitVec 12) :
    decode (imm.extractLsb' 5 7 ++ reg5 rs2 ++ reg5 rs1 ++ f3 ++ imm.extractLsb' 0 5 ++
      0b0100011#7) = decodeStore (encodeS f3 rs2 rs1 imm) := by
  have hword : imm.extractLsb' 5 7 ++ reg5 rs2 ++ reg5 rs1 ++ f3 ++ imm.extractLsb' 0 5 ++
      0b0100011#7 = encodeS f3 rs2 rs1 imm := by
    simp only [reg5_eq_regBits, encodeS]
  simp only [hword, decode, opcodeOf_encodeS]

namespace Machine

/-! Inside and outside memory. -/

/-- `ea = u32(x[rs1] + imm)` in the integers of the spec (spec/20_memory.md R56). -/
theorem effectiveAddress_eq_u32 (s : State) (rs1 : RegIdx) (imm : BitVec 12) :
    effectiveAddress s rs1 imm = u32 ((s.readReg rs1).toNat + sext 12 imm.toNat) :=
  (u32_toNat_add_sext12 (s.readReg rs1) imm).symm

section

variable {s : State} {rs1 : RegIdx} {imm : BitVec 12}

theorem exec_lw_of_fits (rd : RegIdx)
    (hfit : (effectiveAddress s rs1 imm).toNat + 4 ≤ s.cfg.memCapacity) :
    exec (.lw rd rs1 imm) s =
      .next (s.finishWith rd (wordAt s (effectiveAddress s rs1 imm).toNat)) := by
  obtain ⟨hover, _⟩ | ⟨_, hdone⟩ := execLw_cases rd rs1 imm s
  · omega
  · rw [hdone, wordAt_eq]

theorem exec_lw_of_overflow (rd : RegIdx)
    (hover : s.cfg.memCapacity < (effectiveAddress s rs1 imm).toNat + 4) :
    exec (.lw rd rs1 imm) s =
      .next (s.raiseFault (.outOfBounds (effectiveAddress s rs1 imm) 4 .load)) := by
  obtain ⟨_, hfault⟩ | ⟨hfit, _⟩ := execLw_cases rd rs1 imm s
  · exact hfault
  · omega

theorem exec_sw_of_fits (rs2 : RegIdx)
    (hfit : (effectiveAddress s rs1 imm).toNat + 4 ≤ s.cfg.memCapacity) :
    exec (.sw rs2 rs1 imm) s =
      .next (State.complete
        { s with
          mem := s.mem.writeBytes (effectiveAddress s rs1 imm).toNat
            (littleEndianBytes 4 (s.readReg rs2).toNat) }
        s.pcPlus4) := by
  obtain ⟨hover, _⟩ | ⟨_, hdone⟩ := execSw_cases rs2 rs1 imm s
  · omega
  · exact hdone

theorem exec_sw_of_overflow (rs2 : RegIdx)
    (hover : s.cfg.memCapacity < (effectiveAddress s rs1 imm).toNat + 4) :
    exec (.sw rs2 rs1 imm) s =
      .next (s.raiseFault (.outOfBounds (effectiveAddress s rs1 imm) 4 .store)) := by
  obtain ⟨_, hfault⟩ | ⟨hfit, _⟩ := execSw_cases rs2 rs1 imm s
  · exact hfault
  · omega

end

/-- Completing leaves the status of a core whose halt flag is clear (spec/40_instruction_cycle.md
R85). -/
theorem complete_status_of_not_halted {s : State} (h : s.halted = false) (p : Word) :
    (s.complete p).status = s.status := by
  rw [complete_status, h]
  rfl

/-! The statements. -/

/-- Settles O42: the load table's LW entry; inside memory the word at the effective address written
to `x[rd]`, outside it the fault taken. -/
theorem lwLoadsTheWord : Obligations.LwLoadsTheWord := by
  unfold Obligations.LwLoadsTheWord
  intro rd rs1 imm s hs
  refine ⟨?encoding, effectiveAddress_eq_u32 s rs1 imm, fun hfit => ?loads, exec_lw_of_overflow rd⟩
  case encoding => rw [decode_loadWord]; simp [decodeLoad]
  case loads => exact exists_writesRegister_of_exec hs (exec_lw_of_fits rd hfit)

/-- Settles O43: the store table's SW entry; inside memory the four bytes of `x[rs2]` replace those
at the effective address, which with the pc is all of the state SW changes; outside it the fault
taken. -/
theorem swStoresTheWord : Obligations.SwStoresTheWord := by
  unfold Obligations.SwStoresTheWord
  intro rs2 rs1 imm s hs hm
  refine ⟨?encoding, effectiveAddress_eq_u32 s rs1 imm,
    fun hfit => ⟨_, exec_sw_of_fits rs2 hfit, fun k hk => ?stored, fun a ha => ?kept,
      readReg_congr rfl rfl, pcPlus4_eq_u32 s, rfl, ?status, rfl⟩,
    exec_sw_of_overflow rs2⟩
  case encoding => rw [decode_storeWord]; simp [decodeStore]
  case stored => exact Memory.read_writeBytes_littleEndian hm _ (s.readReg rs2) hk
  case kept => exact Memory.read_writeBytes_outside hm (by rwa [length_littleEndianBytes])
  case status => exact complete_status_of_not_halted hs.2 s.pcPlus4

end Machine

end Sys2Proof
end

section
/-! PROOFS. BEQ and BNE: the words they are encoded in, the state a branch leaves, the pc each chooses,
and their statements (spec/44_branch.md R122 to R124). -/

namespace Sys2Proof

/-! The words of the group. -/

theorem evenOffset_iff {n : ℕ} (offset : BitVec n) :
    evenOffset offset = true ↔ offset.getLsbD 0 = false := by
  simp only [evenOffset, Bool.not_eq_true']

/-- The dispatch sends a word written out field by field as R123 and R124 write it to the branch table
(R74). -/
theorem decode_branchWord (f3 : BitVec 3) (rs1 rs2 : RegIdx) (offset : BitVec 13) :
    decode (offset.extractLsb' 12 1 ++ offset.extractLsb' 5 6 ++ reg5 rs2 ++ reg5 rs1 ++ f3 ++
      offset.extractLsb' 1 4 ++ offset.extractLsb' 11 1 ++ 0b1100011#7) =
      decodeBranch (encodeB f3 rs1 rs2 offset) := by
  have hword : offset.extractLsb' 12 1 ++ offset.extractLsb' 5 6 ++ reg5 rs2 ++ reg5 rs1 ++ f3 ++
      offset.extractLsb' 1 4 ++ offset.extractLsb' 11 1 ++ 0b1100011#7 =
      encodeB f3 rs1 rs2 offset := by
    simp only [reg5_eq_regBits, encodeB]
  simp only [hword, decode, opcodeOf_encodeB]

namespace Machine

/-! What a branch leaves. -/

/-- From a running core, completing moves the pc and nothing else (spec/40_instruction_cycle.md
R85). -/
theorem complete_writesPcOnly {s : State} (hs : s.Active) (p : Word) :
    WritesPcOnly s (s.complete p) p where
  registers := readReg_complete s p
  pc := complete_pc s p
  rest :=
    { memory := fun _ => rfl
      halted := complete_halted s p
      status := complete_status_of_not_halted hs.2 p
      parameters := complete_cfg s p }

/-- An instruction that does no more than complete answers a state in which only the pc moved. -/
theorem exists_writesPcOnly_of_exec {s : State} {i : Instr} {p : Word}
    (hs : s.Active) (hexec : exec i s = .next (s.complete p)) :
    ∃ t, exec i s = .next t ∧ WritesPcOnly s t p :=
  ⟨_, hexec, complete_writesPcOnly hs p⟩

/-! The pc each branch chooses, in the integers of the spec. -/

theorem exec_beq (rs1 rs2 : RegIdx) (offset : BitVec 13) (s : State) :
    exec (.beq rs1 rs2 offset) s = .next (s.complete
      (if s.readReg rs1 = s.readReg rs2
        then u32 (s.pc.toNat + sext 13 offset.toNat) else u32 (s.pc.toNat + 4))) := by
  have hexec : exec (.beq rs1 rs2 offset) s = execBeq rs1 rs2 offset s := rfl
  simp only [hexec, execBeq, sameValue_iff, branchTarget_eq_u32, pcPlus4_eq_u32]

/-- The model tests equality for BNE too, with the two arms the other way round. -/
theorem exec_bne (rs1 rs2 : RegIdx) (offset : BitVec 13) (s : State) :
    exec (.bne rs1 rs2 offset) s = .next (s.complete
      (if s.readReg rs1 ≠ s.readReg rs2
        then u32 (s.pc.toNat + sext 13 offset.toNat) else u32 (s.pc.toNat + 4))) := by
  have hexec : exec (.bne rs1 rs2 offset) s = execBne rs1 rs2 offset s := rfl
  simp only [hexec, execBne, sameValue_iff, branchTarget_eq_u32, pcPlus4_eq_u32, ne_eq, ite_not]

/-! The statements. -/

/-- Settles O44: the branch table's BEQ entry, and completion with the target if the registers are
equal. -/
theorem beqBranchesOnEqual : Obligations.BeqBranchesOnEqual := by
  unfold Obligations.BeqBranchesOnEqual
  intro rs1 rs2 offset s hs
  refine ⟨fun heven => ?encoding, exists_writesPcOnly_of_exec hs (exec_beq rs1 rs2 offset s)⟩
  case encoding =>
    rw [decode_branchWord]
    simp [decodeBranch, fieldB_encodeB _ _ _ ((evenOffset_iff offset).2 heven)]

/-- Settles O45: the branch table's BNE entry, and completion with the target if the registers
differ. -/
theorem bneBranchesOnDifferent : Obligations.BneBranchesOnDifferent := by
  unfold Obligations.BneBranchesOnDifferent
  intro rs1 rs2 offset s hs
  refine ⟨fun heven => ?encoding, exists_writesPcOnly_of_exec hs (exec_bne rs1 rs2 offset s)⟩
  case encoding =>
    rw [decode_branchWord]
    simp [decodeBranch, fieldB_encodeB _ _ _ ((evenOffset_iff offset).2 heven)]

end Machine

end Sys2Proof
end

section
/-! PROOFS. LUI: the word it is encoded in, its immediate in the integers of the spec, the split of a
32-bit constant into the immediates of LUI and ADDI, and their statements
(spec/45_upper_immediate.md R126, R127). -/

namespace Sys2Proof

/-! The words. -/

/-- The opcode alone selects LUI, in a word written out field by field as R126 writes it. -/
theorem decode_upperWord (rd : RegIdx) (imm20 : BitVec 20) :
    decode (imm20 ++ reg5 rd ++ 0b0110111#7) = .ok (.lui rd imm20) := by
  have hword : imm20 ++ reg5 rd ++ 0b0110111#7 = encodeU rd imm20 := by
    simp only [reg5_eq_regBits, encodeU]
  simp only [hword, decode, opcodeOf_encodeU, rdOf_encodeU, fieldU_encodeU]

/-- The base encoding's opcode for adding an upper immediate to the pc is none of the eight (R76,
R127). -/
theorem illegalWord_of_addUpperToPc {w : Word} (hop : slice w 6 0 = 0x17) : IllegalWord w :=
  .inl (by rw [hop]; decide)

/-! Immediates. -/

/-- An upper immediate is its field above 12 zero bits. The field may be given by a number that does
not fit it: the same bits are lost on both sides. -/
theorem immediateU_ofNat (n : ℕ) : immediateU (BitVec.ofNat 20 n) = u32 (n * 2 ^ 12) := by
  have hcast : (n * 2 ^ 12 : ℤ) = (n * 2 ^ 12 : ℕ) := by push_cast; rfl
  apply BitVec.eq_of_toNat_eq
  rw [immediateU, toNat_append_eq_mul_add, hcast, u32_natCast]
  simp only [BitVec.toNat_ofNat]
  omega

theorem immediateU_eq_u32 (imm20 : BitVec 20) : immediateU imm20 = u32 (imm20.toNat * 2 ^ 12) := by
  rw [← immediateU_ofNat, BitVec.ofNat_toNat, BitVec.setWidth_eq]

/-! The two immediates of a constant. -/

/-- The immediate of ADDI in R127, the field `v[11:0]`. -/
def addiPart (v : Word) : BitVec 12 := BitVec.ofNat 12 (slice v 11 0)

/-- The immediate of LUI in R127, `hi = u32(v - lo)[31:12]`. -/
def luiPart (v : Word) : BitVec 20 :=
  BitVec.ofNat 20 (slice (u32 ((v.toNat : ℤ) - sext 12 (slice v 11 0))) 31 12)

/-- Taking away the sign-extended low 12 bits leaves a multiple of `2^12`: where `v[11]` is set they
count as `v[11:0] - 2^12`, so the upper bits count one more (R127). -/
theorem toNat_sub_sext_low (v : Word) : (v.toNat : ℤ) - sext 12 (slice v 11 0) =
    (slice v 31 12 + slice v 11 11 : ℕ) * 2 ^ 12 := by
  have := v.isLt
  unfold sext slice
  split <;> omega

theorem slice_sub_sext_low (v : Word) :
    slice (u32 ((v.toNat : ℤ) - sext 12 (slice v 11 0))) 31 12 =
      (slice v 31 12 + slice v 11 11) % 2 ^ 20 := by
  rw [toNat_sub_sext_low, ← immediateU_ofNat, slice, immediateU, toNat_append_eq_mul_add]
  simp

theorem immediate12_addiPart (v : Word) :
    immediate12 (addiPart v) = u32 (sext 12 (slice v 11 0)) := by
  rw [← u32_sext_eq_immediate12, addiPart, BitVec.toNat_ofNat, Nat.mod_eq_of_lt (slice_lt v 11 0)]

theorem immediateU_luiPart (v : Word) :
    immediateU (luiPart v) = u32 (v.toNat - sext 12 (slice v 11 0)) := by
  rw [luiPart, slice_sub_sext_low, ← BitVec.toNat_ofNat, BitVec.ofNat_toNat, BitVec.setWidth_eq,
    immediateU_ofNat, toNat_sub_sext_low]

/-- The immediates of R127 add up to the constant. -/
theorem immediateU_add_immediate12 (v : Word) :
    immediateU (luiPart v) + immediate12 (addiPart v) = v := by
  rw [immediateU_luiPart, immediate12_addiPart, ← u32_add, sub_add_cancel, u32_toNat]

namespace Machine

/-! The statements. -/

/-- Settles O46: the opcode's LUI entry, and the upper immediate written to `x[rd]`. -/
theorem luiLoadsTheUpperImmediate : Obligations.LuiLoadsTheUpperImmediate := by
  unfold Obligations.LuiLoadsTheUpperImmediate
  intro rd imm20 s hs
  rw [← immediateU_eq_u32]
  exact ⟨decode_upperWord rd imm20, exists_writesRegister_of_exec hs rfl⟩

/-- Settles O50: LUI leaves the upper immediate in `x[rd]` whatever it held, to which ADDI adds the
lower one; a hard-wired `x[rd]` is written by neither. -/
theorem luiAddiBuildsAnyConstant : Obligations.LuiAddiBuildsAnyConstant := by
  unfold Obligations.LuiAddiBuildsAnyConstant
  refine ⟨fun rd v s hs => ?builds, slice_sub_sext_low, fun w hop =>
    exists_decode_eq_error_of_illegalWord (illegalWord_of_addUpperToPc hop)⟩
  obtain ⟨t, hlui, ht⟩ : ∃ t, exec (.lui rd (luiPart v)) s = .next t ∧
      WritesRegister s t rd (immediateU (luiPart v)) _ :=
    exists_writesRegister_of_exec hs rfl
  obtain ⟨u, haddi, hu⟩ : ∃ u, exec (.addi rd rd (addiPart v)) t = .next u ∧
      WritesRegister t u rd (t.readReg rd + immediate12 (addiPart v)) _ :=
    exists_writesRegister_of_exec (ht.active hs) rfl
  refine ⟨t, u, hlui, haddi, fun i => ?_⟩
  rw [hu.registers, ht.rest.parameters]
  split
  case isTrue hwritten =>
    rw [ht.readReg_destination hwritten.2, immediateU_add_immediate12]
  case isFalse hkept => rw [ht.registers, if_neg hkept]

end Machine

end Sys2Proof
end

section
/-! PROOFS. JAL: the word it is encoded in, the state a jump with a link leaves, its link and target in
the integers of the spec, and its statement (spec/46_jump_and_link.md R128). -/

namespace Sys2Proof

/-! The word. -/

/-- The opcode alone selects JAL, in a word written out field by field as R128 writes it. Bit 0 of the
offset has no place in the word (R82), so only an even offset comes back. -/
theorem decode_jumpWord (rd : RegIdx) {offset : BitVec 21} (heven : evenOffset offset = true) :
    decode (offset.extractLsb' 20 1 ++ offset.extractLsb' 1 10 ++ offset.extractLsb' 11 1 ++
      offset.extractLsb' 12 8 ++ reg5 rd ++ 0b1101111#7) = .ok (.jal rd offset) := by
  have hword : offset.extractLsb' 20 1 ++ offset.extractLsb' 1 10 ++ offset.extractLsb' 11 1 ++
      offset.extractLsb' 12 8 ++ reg5 rd ++ 0b1101111#7 = encodeJ rd offset := by
    simp only [reg5_eq_regBits, encodeJ]
  simp only [hword, decode, opcodeOf_encodeJ, rdOf_encodeJ, fieldJ_encodeJ rd heven]

namespace Machine

/-! What a jump with a link leaves. -/

/-- From a running core, a register write completed with any pc is the register write and that pc: the
write leaves the core running, so completing moves the pc and nothing else
(spec/40_instruction_cycle.md R85). -/
theorem writeReg_complete_writesRegister {s : State} (hs : s.Active) (rd : RegIdx) (v p : Word) :
    WritesRegister s ((s.writeReg rd v).complete p) rd v p :=
  have hwrite := writeReg_sameButRegsAndPc s rd v
  have hactive : (s.writeReg rd v).Active := ⟨hwrite.status.trans hs.1, hwrite.halted.trans hs.2⟩
  have hpc := complete_writesPcOnly hactive p
  { registers := fun i => (hpc.registers i).trans (readReg_writeReg_policy s rd i v)
    pc := hpc.pc
    rest :=
      { memory := fun a => (hpc.rest.memory a).trans (hwrite.memory a)
        halted := hpc.rest.halted.trans hwrite.halted
        status := hpc.rest.status.trans hwrite.status
        parameters := hpc.rest.parameters.trans hwrite.parameters } }

/-- The link and the target of JAL in the integers of the spec, both from the pc the step began with. -/
theorem exec_jal (rd : RegIdx) (offset : BitVec 21) (s : State) :
    exec (.jal rd offset) s = .next ((s.writeReg rd (u32 (s.pc.toNat + 4))).complete
      (u32 (s.pc.toNat + sext 21 offset.toNat))) := by
  have hexec : exec (.jal rd offset) s = execJal rd offset s := rfl
  rw [hexec, execJal, pcPlus4_eq_u32, jumpTarget_eq_u32]

/-! The statement. -/

/-- Settles O47: the opcode's JAL entry, and the link written to `x[rd]` before completion with the
target. -/
theorem jalLinksAndJumps : Obligations.JalLinksAndJumps := by
  unfold Obligations.JalLinksAndJumps
  intro rd offset s hs
  exact ⟨fun heven => decode_jumpWord rd ((evenOffset_iff offset).2 heven),
    _, exec_jal rd offset s, writeReg_complete_writesRegister hs rd _ _⟩

end Machine

end Sys2Proof
end

section
/-! PROOFS. ECALL: the words that decode to it, the state it leaves, the halt flag over every
instruction, and its statement (spec/47_system.md R131). -/

namespace Sys2Proof

/-- The opcode alone selects ECALL: the other 25 bits are ignored (decision D12). -/
theorem decode_of_opcode_ecall {w : Word} (hop : opcodeOf w = 0x73#7) : decode w = .ok .ecall := by
  simp only [decode, hop]

namespace Machine

/-! The halt. -/

/-- ECALL sets the halt flag and completes, so the pc advances as after any other instruction
(decision D13). -/
theorem exec_ecall (s : State) :
    exec .ecall s = .next (s.setHalted.complete (u32 (s.pc.toNat + 4))) := by
  have hexec : exec .ecall s = execEcall s := rfl
  rw [hexec, execEcall, pcPlus4_eq_u32]

/-- Completing is where a set halt flag becomes the status Halted
(spec/40_instruction_cycle.md R85). -/
theorem setHalted_complete_status (s : State) (p : Word) :
    (s.setHalted.complete p).status = .halted := by
  rw [complete_status, setHalted_halted]
  rfl

/-! The halt flag, by how the instruction ended. -/

/-- Completing leaves the halt flag as the instruction made it. -/
theorem halted_of_next_complete {u t : State} {p : Word}
    (h : (.next (u.complete p) : Host.Outcome State Fault Refusal) = .next t) :
    t.halted = u.halted := by
  cases h
  exact complete_halted u p

/-- A register write followed by completing, with `pc + 4` or with a jump's target, leaves the halt
flag. -/
theorem halted_of_next_writeReg_complete {s t : State} {rd : RegIdx} {v p : Word}
    (h : (.next ((s.writeReg rd v).complete p) : Host.Outcome State Fault Refusal) = .next t) :
    t.halted = s.halted :=
  (halted_of_next_complete h).trans (writeReg_halted s rd v)

/-- A fault leaves the halt flag (spec/60_exceptions.md R139). -/
theorem halted_of_next_raiseFault {s t : State} {f : Fault}
    (h : (.next (s.raiseFault f) : Host.Outcome State Fault Refusal) = .next t) :
    t.halted = s.halted := by
  cases h
  exact raiseFault_halted s f

/-- ECALL is the only instruction that changes the halt flag (R131): every other one ends by
completing, after a register write, a store or neither, or by raising a fault. -/
theorem halted_of_exec_of_ne_ecall {i : Instr} {s t : State} (hexec : exec i s = .next t)
    (hi : i ≠ .ecall) : t.halted = s.halted := by
  cases i with
  | ecall => exact absurd rfl hi
  | add | sub | sll | slt | xor | srl | or | and
  | addi | slli | slti | xori | srli | ori | andi
  | lui | jal => exact halted_of_next_writeReg_complete hexec
  | beq | bne => exact halted_of_next_complete hexec
  | lw rd rs1 imm =>
    obtain ⟨_, hfault⟩ | ⟨_, hdone⟩ := execLw_cases rd rs1 imm s
    · exact halted_of_next_raiseFault (hfault.symm.trans hexec)
    · exact halted_of_next_writeReg_complete (hdone.symm.trans hexec)
  | sw rs2 rs1 imm =>
    obtain ⟨_, hfault⟩ | ⟨_, hdone⟩ := execSw_cases rs2 rs1 imm s
    · exact halted_of_next_raiseFault (hfault.symm.trans hexec)
    · have hkept := halted_of_next_complete (hdone.symm.trans hexec)
      exact hkept

/-! The statement. -/

/-- Settles O48: the opcode's ECALL entry, the halt flag set before completion with `pc + 4`, and the
halt flag kept by every other instruction. -/
theorem ecallHaltsTheCore : Obligations.EcallHaltsTheCore := by
  unfold Obligations.EcallHaltsTheCore
  refine ⟨fun w hw => ?decodes, fun s _ => ?halts, fun i s t hs hexec hi => ?onlyEcall⟩
  case decodes => exact decode_of_opcode_ecall ((slice_opcode_eq_iff w (by decide)).1 hw)
  case halts =>
    exact ⟨_, exec_ecall s, setHalted_halted s, setHalted_complete_status s _, rfl,
      readReg_setHalted s, fun _ => rfl, rfl⟩
  case onlyEcall => exact (halted_of_exec_of_ne_ecall hexec hi).trans hs.2

end Machine

end Sys2Proof
end

section
/-! PROOFS. What an instruction can do, said once: five effects, each given by the values it
writes. An instruction has one effect on every state that agrees on the operands it reads, which
gives both what a single step can change and what it depends on (spec/10_state.md R18,
spec/40_instruction_cycle.md R85). -/

namespace Sys2Proof.Machine

/-! Effects. -/

/-- The effect of an instruction, without the state it read. -/
inductive Effect where
  /-- `x[rd] <- v` and `pc <- nextPc`. -/
  | write (rd : RegIdx) (v nextPc : Word)
  /-- `pc <- nextPc`. -/
  | jump (nextPc : Word)
  /-- The four bytes of `v` stored at `addr`, and `pc <- nextPc`. -/
  | store (addr v nextPc : Word)
  /-- `halted <- true` and `pc <- nextPc`. -/
  | halt (nextPc : Word)
  /-- A fault raised, and nothing else. -/
  | fault (f : Fault)

/-- A word stored without the bounds check: SW's effect once the check has passed. -/
def State.storeWord (s : State) (addr v : Word) : State :=
  { s with mem := s.mem.writeBytes addr.toNat (littleEndianBytes 4 v.toNat) }

@[simp] theorem storeWord_pc (s : State) (addr v : Word) : (s.storeWord addr v).pc = s.pc := rfl
@[simp] theorem storeWord_mem (s : State) (addr v : Word) : (s.storeWord addr v).mem =
    s.mem.writeBytes addr.toNat (littleEndianBytes 4 v.toNat) := rfl
@[simp] theorem storeWord_halted (s : State) (addr v : Word) :
    (s.storeWord addr v).halted = s.halted := rfl
@[simp] theorem storeWord_status (s : State) (addr v : Word) :
    (s.storeWord addr v).status = s.status := rfl
@[simp] theorem storeWord_cfg (s : State) (addr v : Word) : (s.storeWord addr v).cfg = s.cfg := rfl

/-- The state an effect leaves. -/
def Effect.apply (s : State) : Effect → State
  | .write rd v nextPc => (s.writeReg rd v).complete nextPc
  | .jump nextPc => s.complete nextPc
  | .store addr v nextPc => (s.storeWord addr v).complete nextPc
  | .halt nextPc => s.setHalted.complete nextPc
  | .fault f => s.raiseFault f

/-- The table of R138 for one instruction: LW and SW raise OutOfBounds for a word at the effective
address that does not lie whole in memory. -/
def AccessFault (i : Instr) (s : State) (f : Fault) : Prop :=
  (∃ rd rs1 imm, i = .lw rd rs1 imm ∧ s.cfg.memCapacity < (effectiveAddress s rs1 imm).toNat + 4 ∧
    f = .outOfBounds (effectiveAddress s rs1 imm) 4 .load) ∨
  ∃ rs2 rs1 imm, i = .sw rs2 rs1 imm ∧ s.cfg.memCapacity < (effectiveAddress s rs1 imm).toNat + 4 ∧
    f = .outOfBounds (effectiveAddress s rs1 imm) 4 .store

/-- Which effects an instruction can have at a state: the register written is its destination, only
SW stores and only in range, only ECALL halts, and a fault is one of the table. -/
def Effect.Fits (i : Instr) (s : State) : Effect → Prop
  | .write rd _ _ => i.destination = some rd
  | .jump _ => i.destination = none ∧ i ≠ .ecall
  | .store addr v nextPc => ∃ rs2 rs1 imm, i = .sw rs2 rs1 imm ∧ addr = effectiveAddress s rs1 imm ∧
      v = s.readReg rs2 ∧ nextPc = s.pcPlus4 ∧ addr.toNat + 4 ≤ s.cfg.memCapacity
  | .halt _ => i = .ecall
  | .fault f => AccessFault i s f

/-- Two states that agree on all that an instruction may read: its sources, the pc, the memory and
the two parameters other than X0_HARDWIRED. -/
structure SameOperands (i : Instr) (s s' : State) : Prop where
  sources : ∀ r ∈ i.sources, s'.readReg r = s.readReg r
  pc : s'.pc = s.pc
  memory : s'.mem = s.mem
  capacity : s'.cfg.memCapacity = s.cfg.memCapacity
  signedness : s'.cfg.sltSigned = s.cfg.sltSigned

theorem SameOperands.refl (i : Instr) (s : State) : SameOperands i s s :=
  ⟨fun _ _ => rfl, rfl, rfl, rfl, rfl⟩

section

variable {i : Instr} {s s' : State}

theorem SameOperands.pcPlus4 (h : SameOperands i s s') : s'.pcPlus4 = s.pcPlus4 := by
  rw [State.pcPlus4, State.pcPlus4, h.pc]

theorem SameOperands.lessThan (h : SameOperands i s s') (a b : Word) :
    lessThan s'.cfg a b = lessThan s.cfg a b := by
  rw [Machine.lessThan, Machine.lessThan, h.signedness]

theorem SameOperands.effectiveAddress (h : SameOperands i s s') {rs1 : RegIdx}
    (hsrc : rs1 ∈ i.sources) (imm : BitVec 12) :
    effectiveAddress s' rs1 imm = effectiveAddress s rs1 imm := by
  rw [Machine.effectiveAddress, Machine.effectiveAddress, h.sources rs1 hsrc]

end

/-- The effect fits the instruction, and is what it does to every state that agrees on the
operands. -/
structure HasEffect (i : Instr) (s : State) (e : Effect) : Prop where
  fits : e.Fits i s
  exec_eq : ∀ s', SameOperands i s s' → exec i s' = .next (e.apply s')

/-! LW and SW. -/

theorem exists_effect_lw (rd rs1 : RegIdx) (imm : BitVec 12) (s : State) :
    ∃ e, HasEffect (.lw rd rs1 imm) s e := by
  have haddr {s'} (h : SameOperands (.lw rd rs1 imm) s s') :
      effectiveAddress s' rs1 imm = effectiveAddress s rs1 imm :=
    h.effectiveAddress (by simp [Instr.sources]) imm
  by_cases hfit : (effectiveAddress s rs1 imm).toNat + 4 ≤ s.cfg.memCapacity
  case pos =>
    refine ⟨.write rd (wordAt s (effectiveAddress s rs1 imm).toNat) s.pcPlus4, rfl, fun s' h => ?_⟩
    rw [exec_lw_of_fits rd (by rwa [haddr h, h.capacity]), haddr h, State.finishWith, h.pcPlus4,
      wordAt_eq, wordAt_eq, h.memory, Effect.apply]
  case neg =>
    have hover := Nat.lt_of_not_le hfit
    refine ⟨.fault _, .inl ⟨rd, rs1, imm, rfl, hover, rfl⟩, fun s' h => ?_⟩
    rw [exec_lw_of_overflow rd (by rwa [haddr h, h.capacity]), haddr h, Effect.apply]

theorem exists_effect_sw (rs2 rs1 : RegIdx) (imm : BitVec 12) (s : State) :
    ∃ e, HasEffect (.sw rs2 rs1 imm) s e := by
  have haddr {s'} (h : SameOperands (.sw rs2 rs1 imm) s s') :
      effectiveAddress s' rs1 imm = effectiveAddress s rs1 imm :=
    h.effectiveAddress (by simp [Instr.sources]) imm
  by_cases hfit : (effectiveAddress s rs1 imm).toNat + 4 ≤ s.cfg.memCapacity
  case pos =>
    refine ⟨.store (effectiveAddress s rs1 imm) (s.readReg rs2) s.pcPlus4,
      ⟨rs2, rs1, imm, rfl, rfl, rfl, rfl, hfit⟩, fun s' h => ?_⟩
    rw [exec_sw_of_fits rs2 (by rwa [haddr h, h.capacity]), haddr h,
      h.sources rs2 (by simp [Instr.sources]), h.pcPlus4, Effect.apply, State.storeWord]
  case neg =>
    have hover := Nat.lt_of_not_le hfit
    refine ⟨.fault _, .inr ⟨rs2, rs1, imm, rfl, hover, rfl⟩, fun s' h => ?_⟩
    rw [exec_sw_of_overflow rs2 (by rwa [haddr h, h.capacity]), haddr h, Effect.apply]

/-! Every instruction. -/

/-- An instruction that ends with `finishWith`, the value a function of its operands. -/
theorem exists_effect_of_finishWith {i : Instr} {rd : RegIdx} {v : State → Word}
    (hd : i.destination = some rd) (hexec : ∀ s, exec i s = .next (s.finishWith rd (v s)))
    (s : State) (hv : ∀ s', SameOperands i s s' → v s' = v s) :
    ∃ e, HasEffect i s e := by
  refine ⟨.write rd (v s) s.pcPlus4, hd, fun s' h => ?_⟩
  rw [hexec, hv s' h, State.finishWith, h.pcPlus4, Effect.apply]

/-- An instruction that does no more than complete, the pc a function of its operands. -/
theorem exists_effect_of_complete {i : Instr} {p : State → Word} (hd : i.destination = none)
    (hi : i ≠ .ecall) (hexec : ∀ s, exec i s = .next (s.complete (p s))) (s : State)
    (hp : ∀ s', SameOperands i s s' → p s' = p s) :
    ∃ e, HasEffect i s e := by
  refine ⟨.jump (p s), ⟨hd, hi⟩, fun s' h => ?_⟩
  rw [hexec, hp s' h, Effect.apply]

/-- Every instruction has an effect. -/
theorem exists_effect (i : Instr) (s : State) :
    ∃ e, HasEffect i s e := by
  cases i with
  | lw rd rs1 imm => exact exists_effect_lw rd rs1 imm s
  | sw rs2 rs1 imm => exact exists_effect_sw rs2 rs1 imm s
  | add rd rs1 rs2 | sub rd rs1 rs2 | sll rd rs1 rs2 | slt rd rs1 rs2
  | xor rd rs1 rs2 | srl rd rs1 rs2 | or rd rs1 rs2 | and rd rs1 rs2 =>
    refine exists_effect_of_finishWith rfl (fun _ => rfl) s fun s' h => ?_
    have h1 := h.sources rs1 (by simp [Instr.sources])
    have h2 := h.sources rs2 (by simp [Instr.sources])
    simp only [h1, h2, h.lessThan]
  | addi rd rs1 | slli rd rs1 | slti rd rs1 | xori rd rs1 | srli rd rs1 | ori rd rs1
  | andi rd rs1 =>
    refine exists_effect_of_finishWith rfl (fun _ => rfl) s fun s' h => ?_
    have h1 := h.sources rs1 (by simp [Instr.sources])
    simp only [h1, h.lessThan]
  | lui rd imm20 => exact exists_effect_of_finishWith rfl (fun _ => rfl) s fun _ _ => rfl
  | beq rs1 rs2 offset =>
    refine exists_effect_of_complete rfl (by simp) (exec_beq rs1 rs2 offset) s fun s' h => ?_
    have h1 := h.sources rs1 (by simp [Instr.sources])
    have h2 := h.sources rs2 (by simp [Instr.sources])
    simp only [h1, h2, h.pc]
  | bne rs1 rs2 offset =>
    refine exists_effect_of_complete rfl (by simp) (exec_bne rs1 rs2 offset) s fun s' h => ?_
    have h1 := h.sources rs1 (by simp [Instr.sources])
    have h2 := h.sources rs2 (by simp [Instr.sources])
    simp only [h1, h2, h.pc]
  | jal rd offset =>
    exact ⟨.write rd _ _, rfl, fun s' h => by rw [exec_jal, h.pc, Effect.apply]⟩
  | ecall => exact ⟨.halt _, rfl, fun s' h => by rw [exec_ecall, h.pc, Effect.apply]⟩

/-- What the state an instruction answers can be: that of an effect which fits it. -/
theorem exists_effect_of_exec {i : Instr} {s t : State} (hexec : exec i s = .next t) :
    ∃ e : Effect, e.Fits i s ∧ t = e.apply s := by
  obtain ⟨e, hfits, heq⟩ := exists_effect i s
  cases (heq s (.refl i s)).symm.trans hexec
  exact ⟨e, hfits, rfl⟩

end Sys2Proof.Machine
end

section
/-! PROOFS. What each effect leaves, field by field, and the statements about every instruction that
follow: what it changes and keeps, what it depends on, and which faults it raises
(spec/10_state.md section 1, spec/47_system.md, spec/60_exceptions.md R135 to R139). -/

namespace Sys2Proof.Machine

/-! The fields after an effect. -/

theorem Effect.apply_pc (e : Effect) (s : State) : (e.apply s).pc =
    match e with
    | .write _ _ p => p
    | .jump p => p
    | .store _ _ p => p
    | .halt p => p
    | .fault _ => s.pc := by
  cases e <;> rfl

theorem Effect.apply_mem (e : Effect) (s : State) : (e.apply s).mem =
    match e with
    | .store addr v _ => s.mem.writeBytes addr.toNat (littleEndianBytes 4 v.toNat)
    | _ => s.mem := by
  cases e with
  | write rd v p => exact writeReg_mem s rd v
  | _ => rfl

theorem Effect.apply_halted (e : Effect) (s : State) : (e.apply s).halted =
    match e with
    | .halt _ => true
    | _ => s.halted := by
  cases e with
  | write rd v p => exact writeReg_halted s rd v
  | _ => rfl

/-- Only a fault and a halt decide the status; any other effect completes the step (R85). -/
theorem Effect.apply_status (e : Effect) (s : State) : (e.apply s).status =
    match e with
    | .fault f => .faulted f
    | .halt _ => .halted
    | _ => if s.halted then .halted else s.status := by
  cases e with
  | write rd v p => simp [Effect.apply]
  | _ => rfl

theorem Effect.apply_cfg (e : Effect) (s : State) : (e.apply s).cfg = s.cfg := by
  cases e with
  | write rd v p => exact writeReg_cfg s rd v
  | _ => rfl

theorem Effect.apply_readReg (e : Effect) (s : State) (r : RegIdx) : (e.apply s).readReg r =
    match e with
    | .write rd v _ => if r = rd ∧ s.isHardwired rd = false then v else s.readReg r
    | _ => s.readReg r := by
  cases e with
  | write rd v p => exact readReg_writeReg s rd r v
  | _ => rfl

/-! From a running core. -/

section

variable {i : Instr} {s t : State} {e : Effect}

theorem Effect.apply_status_eq_faulted_iff (hs : s.Active) (f : Fault) :
    (e.apply s).status = .faulted f ↔ e = .fault f := by
  rw [Effect.apply_status]
  cases e <;> simp [hs.1, hs.2]

theorem Effect.apply_status_eq_halted_iff (hs : s.Active) :
    (e.apply s).status = .halted ↔ ∃ p, e = .halt p := by
  rw [Effect.apply_status]
  cases e <;> simp [hs.1, hs.2]

theorem Effect.apply_halted_iff (hs : s.Active) : (e.apply s).halted = true ↔ ∃ p, e = .halt p := by
  rw [Effect.apply_halted]
  cases e <;> simp [hs.2]

/-- The effect of ECALL is the halt, and that of no other instruction is. -/
theorem Effect.Fits.exists_halt_iff (hfits : e.Fits i s) : (∃ p, e = .halt p) ↔ i = .ecall := by
  constructor
  case mp => rintro ⟨p, rfl⟩; exact hfits
  case mpr =>
    rintro rfl
    cases e with
    | halt p => exact ⟨p, rfl⟩
    | write rd v p => cases hfits
    | jump p => exact absurd rfl hfits.2
    | store addr v p => obtain ⟨rs2, rs1, imm, hi, -⟩ := hfits; cases hi
    | fault f => obtain ⟨_, _, _, hi, -⟩ | ⟨_, _, _, hi, -⟩ := hfits <;> cases hi

/-! The frame of every instruction. -/

/-- An instruction writes no register but its destination (spec/10_state.md R18). -/
theorem readReg_of_exec (hexec : exec i s = .next t) {r : RegIdx} (hr : i.destination ≠ some r) :
    t.readReg r = s.readReg r := by
  obtain ⟨e, hfits, rfl⟩ := exists_effect_of_exec hexec
  rw [Effect.apply_readReg]
  cases e with
  | write rd v p =>
    have hne : r ≠ rd := by rintro rfl; exact hr hfits
    exact if_neg fun h => hne h.1
  | jump | store | halt | fault => rfl

theorem read_of_exec (hm : s.mem.wf) (hexec : exec i s = .next t) {a : ℕ}
    (ha : ∀ rs2 rs1 imm, i = .sw rs2 rs1 imm →
      a < (effectiveAddress s rs1 imm).toNat ∨ (effectiveAddress s rs1 imm).toNat + 4 ≤ a) :
    t.mem.read a = s.mem.read a := by
  obtain ⟨e, hfits, rfl⟩ := exists_effect_of_exec hexec
  rw [Effect.apply_mem]
  cases e with
  | store addr v p =>
    obtain ⟨rs2, rs1, imm, hi, rfl, -⟩ := hfits
    exact Memory.read_writeBytes_outside hm (by simpa [length_littleEndianBytes] using ha _ _ _ hi)
  | write | jump | halt | fault => rfl

theorem cfg_of_exec (hexec : exec i s = .next t) : t.cfg = s.cfg := by
  obtain ⟨e, -, rfl⟩ := exists_effect_of_exec hexec
  exact e.apply_cfg s

/-- A fault of the table is taken, and nothing else happens (R139). -/
theorem exec_of_accessFault {f : Fault} (h : AccessFault i s f) :
    exec i s = .next (s.raiseFault f) := by
  obtain ⟨rd, rs1, imm, rfl, hover, rfl⟩ | ⟨rs2, rs1, imm, rfl, hover, rfl⟩ := h
  · exact exec_lw_of_overflow rd hover
  · exact exec_sw_of_overflow rs2 hover

/-- A running core faults in an instruction exactly as the table says (R138). -/
theorem status_eq_faulted_iff_accessFault (hs : s.Active) (hexec : exec i s = .next t) (f : Fault) :
    t.status = .faulted f ↔ AccessFault i s f := by
  constructor
  case mp =>
    obtain ⟨e, hfits, rfl⟩ := exists_effect_of_exec hexec
    intro hstatus
    obtain rfl := (Effect.apply_status_eq_faulted_iff hs f).1 hstatus
    exact hfits
  case mpr => exact fun h => status_of_next_raiseFault ((exec_of_accessFault h).symm.trans hexec)

end

theorem step_of_fetch_overflow {s : State} (hr : s.status = .running)
    (h : s.cfg.memCapacity < s.pc.toNat + 4) :
    step s = .next (s.raiseFault (.outOfBounds s.pc 4 .fetch)) := by
  simp only [step, hr, State.fetchInstr, fetchWord_of_overflow h]

/-! The statements about faults and halts. -/

/-- Settles O19: the fetch and the dispatch raise with nothing else changed, and of the effects of
an instruction only a fault leaves the status Faulted. -/
theorem faultingStepChangesOnlyStatus : Obligations.FaultingStepChangesOnlyStatus := by
  unfold Obligations.FaultingStepChangesOnlyStatus
  intro s t f hs hstep hf
  suffices h : t = s.raiseFault f by subst h; exact ⟨rfl, rfl⟩
  obtain ⟨i, -, hexec⟩ | ⟨g, -, hraise⟩ := step_running hs.1
  · obtain ⟨e, -, rfl⟩ := exists_effect_of_exec (hexec.symm.trans hstep)
    obtain rfl := (Effect.apply_status_eq_faulted_iff hs f).1 hf
    rfl
  · cases hraise.symm.trans hstep
    cases hf
    rfl

/-- Settles O20: the fetch, the dispatch and the instruction each raise as the table says. -/
theorem stepFaultsExactlyAsTabled : Obligations.StepFaultsExactlyAsTabled := by
  unfold Obligations.StepFaultsExactlyAsTabled
  refine fun s hs => ⟨step_of_fetch_overflow hs.1, fun hpc =>
    ⟨fun e hd => step_of_decode_error hs.1 hpc hd, fun i hd => ?_⟩⟩
  obtain ⟨t, hexec⟩ := exec_next i s
  exact ⟨t, (step_of_decode_ok hs.1 hpc hd).trans hexec, status_eq_faulted_iff_accessFault hs hexec⟩

/-- Settles O21: a halt is the one effect that sets the flag or the status Halted, and it is
ECALL's. -/
theorem onlyEcallHalts : Obligations.OnlyEcallHalts := by
  unfold Obligations.OnlyEcallHalts
  intro i s t hs hexec
  obtain ⟨e, hfits, rfl⟩ := exists_effect_of_exec hexec
  rw [Effect.apply_halted_iff hs, Effect.apply_status_eq_halted_iff hs, hfits.exists_halt_iff]
  exact ⟨.rfl, .rfl⟩

/-! The statements about what an instruction keeps and depends on. -/

/-- Settles O23, from the frame of each part of the state. -/
theorem frameOfEveryInstruction : Obligations.FrameOfEveryInstruction := by
  unfold Obligations.FrameOfEveryInstruction
  exact fun i s t hm hexec => ⟨fun r => readReg_of_exec hexec, fun a => read_of_exec hm hexec,
    halted_of_exec_of_ne_ecall hexec, cfg_of_exec hexec⟩

/-- An effect that is no fault leaves one value in the destination, whatever the other registers
held. -/
theorem Effect.Fits.readReg_destination {i : Instr} {s s' : State} {e : Effect} {r : RegIdx}
    (hfits : e.Fits i s) (hcfg : s'.cfg = s.cfg) (hr : i.destination = some r) :
    (∃ f, e = .fault f) ∨ (e.apply s').readReg r = (e.apply s).readReg r := by
  cases e with
  | fault f => exact .inl ⟨f, rfl⟩
  | write rd v p =>
    right
    obtain rfl : rd = r := Option.some.inj (hfits.symm.trans hr)
    have hpolicy : s'.isHardwired rd = s.isHardwired rd := by simp only [State.isHardwired, hcfg]
    cases hw : s.isHardwired rd with
    | true =>
      simp only [Effect.apply_readReg, hpolicy, hw, readReg_hardwired hw,
        readReg_hardwired (hpolicy.trans hw)]
    | false => simp [Effect.apply_readReg, hw, hpolicy]
  | jump p => simp [hfits.1] at hr
  | store addr v p =>
    obtain ⟨rs2, rs1, imm, rfl, -⟩ := hfits
    simp [Instr.destination] at hr
  | halt p =>
    obtain rfl : i = .ecall := hfits
    simp [Instr.destination] at hr

/-- Settles O24: the two states agree on the operands, so the instruction has the same effect on
both. -/
theorem instructionReadsOnlyItsSources : Obligations.InstructionReadsOnlyItsSources := by
  unfold Obligations.InstructionReadsOnlyItsSources
  intro i s s' t t' hs hexec hexec' hpc hmem hhalted hstatus hcfg hsources
  have hsame : SameOperands i s s' := ⟨hsources, hpc, hmem, by rw [hcfg], by rw [hcfg]⟩
  have hkept : ∀ r, i.destination ≠ some r →
      t.readReg r = s.readReg r ∧ t'.readReg r = s'.readReg r :=
    fun r hr => ⟨readReg_of_exec hexec hr, readReg_of_exec hexec' hr⟩
  obtain ⟨e, hfits, heq⟩ := exists_effect i s
  cases (heq s (.refl i s)).symm.trans hexec
  cases (heq s' hsame).symm.trans hexec'
  refine ⟨?_, ?_, ?_, ?_, fun r hr => ?destination, hkept⟩
  case destination =>
    refine (hfits.readReg_destination hcfg hr).imp_left ?_
    rintro ⟨f, rfl⟩
    exact ⟨f, rfl⟩
  · rw [Effect.apply_pc, Effect.apply_pc, hpc]
  · rw [Effect.apply_mem, Effect.apply_mem, hmem]
  · rw [Effect.apply_halted, Effect.apply_halted, hhalted]
  · rw [Effect.apply_status, Effect.apply_status, hhalted, hstatus]

/-! The two policies of register 0. -/

/-- The same core under a policy. -/
def State.withPolicy (s : State) (b : Bool) : State :=
  { s with cfg := { s.cfg with x0Hardwired := b } }

theorem isHardwired_of_ne_zero (s : State) {i : RegIdx} (hi : i ≠ 0) : s.isHardwired i = false := by
  simp [State.isHardwired, hi]

/-- While register 0 holds 0 it reads alike under both policies, and so does every other register
(R15, R16). -/
theorem readReg_withPolicy {s : State} (h0 : s.regs[0] = 0) (b : Bool) (i : RegIdx) :
    (s.withPolicy b).readReg i = s.readReg i := by
  by_cases hi : i = 0
  · subst hi
    simp [State.readReg, State.withPolicy, h0]
  · rw [State.readReg, State.readReg, isHardwired_of_ne_zero _ hi, isHardwired_of_ne_zero _ hi]
    rfl

theorem sameOperands_withPolicy (i : Instr) {s : State} (h0 : s.regs[0] = 0) (b : Bool) :
    SameOperands i s (s.withPolicy b) :=
  ⟨fun r _ => readReg_withPolicy h0 b r, rfl, rfl, rfl, rfl⟩

/-- An effect that does not write register 0 is the same under both policies. -/
theorem Effect.apply_withPolicy {e : Effect} (he : ∀ v p, e ≠ .write 0 v p) (s : State) (b : Bool) :
    e.apply (s.withPolicy b) = (e.apply s).withPolicy b := by
  cases e with
  | write rd v p =>
    have hrd : rd ≠ 0 := fun h => he v p (by rw [h])
    simp only [Effect.apply, State.writeReg, isHardwired_of_ne_zero _ hrd]
    rfl
  | jump | store | halt | fault => rfl

/-- Settles O51: both policies give the same operands, hence the same effect, which writes another
register than 0 or none. -/
theorem registerZeroPoliciesAgree : Obligations.RegisterZeroPoliciesAgree := by
  unfold Obligations.RegisterZeroPoliciesAgree
  intro i s h0 hd
  obtain ⟨e, hfits, heq⟩ := exists_effect i s
  have he : ∀ v p, e ≠ .write 0 v p := by
    rintro v p rfl
    exact hd hfits
  refine ⟨e.apply s, fun b => ?_⟩
  exact (heq _ (sameOperands_withPolicy i h0 b)).trans
    (congrArg Host.Outcome.next (Effect.apply_withPolicy he s b))

end Sys2Proof.Machine
end

section
/-! PROOFS. The reset state, the invariant along every step, and the ends of a run (spec/10_state.md
section 6, spec/40_instruction_cycle.md R85, R94 to R96, spec/70_reset_and_hazards.md R157). -/

namespace Sys2Proof.Machine

/-! Reset. -/

/-- Settles O1: the reset state is written out for every setting of the parameters. -/
theorem resetClearsEverything : Obligations.ResetClearsEverything := by
  unfold Obligations.ResetClearsEverything
  refine ⟨fun c => ?_, ⟨Config.default, rfl⟩, fun s => rfl⟩
  exact ⟨readReg_resetWith c, resetWith_pc c, fun a => rfl, resetWith_halted c, resetWith_status c,
    resetWith_cfg c⟩

theorem resetWith_active (c : Config) : (State.resetWith c).Active := ⟨rfl, rfl⟩

theorem resetWith_inv {c : Config} (hc : c.wf) : (State.resetWith c).Inv where
  memory_canonical := by simp [Memory.wf]
  memory_in_range := by simp
  halted_iff := by simp
  capacity := hc

/-- Settles O2: empty memory is canonical and in range, and the core is Running with the flag
clear. -/
theorem resetSatisfiesInvariant : Obligations.ResetSatisfiesInvariant := by
  unfold Obligations.ResetSatisfiesInvariant
  exact ⟨resetWith_inv (by decide), fun _ => resetWith_inv⟩

/-! The invariant under the operations of a step. -/

theorem State.Inv.active {s : State} (hs : s.Inv) (hr : s.status = .running) : s.Active :=
  ⟨hr, by simpa [hr] using hs.halted_iff⟩

/-- The invariant's clause on the halt flag is made good at the end of an instruction, which may
have set the flag of a running core (R85). -/
theorem complete_inv {s : State} (hm : s.mem.wf) (hin : ∀ c ∈ s.mem, c.1 < s.cfg.memCapacity)
    (hc : s.cfg.wf) (hr : s.status = .running) (p : Word) : (s.complete p).Inv where
  memory_canonical := hm
  memory_in_range := hin
  halted_iff := by rw [complete_halted, complete_status, hr]; cases s.halted <;> simp
  capacity := hc

theorem raiseFault_inv {s : State} (hs : s.Inv) (hr : s.status = .running) (f : Fault) :
    (s.raiseFault f).Inv where
  memory_canonical := hs.memory_canonical
  memory_in_range := hs.memory_in_range
  halted_iff := by simp [(hs.active hr).2]
  capacity := hs.capacity

/-- Bytes written inside memory leave no byte listed outside it. -/
theorem writeBytes_in_range {s : State} (hs : s.Inv) {a : ℕ} {bytes : List Byte}
    (hfit : a + bytes.length ≤ s.cfg.memCapacity) :
    ∀ c ∈ s.mem.writeBytes a bytes, c.1 < s.cfg.memCapacity := by
  intro c hc
  obtain ⟨_, hlt⟩ | hold := Memory.mem_writeBytes bytes hc
  · omega
  · exact hs.memory_in_range c hold

theorem Effect.apply_inv {i : Instr} {s : State} {e : Effect} (hs : s.Inv)
    (hr : s.status = .running) (hfits : e.Fits i s) : (e.apply s).Inv := by
  cases e with
  | write rd v p =>
    exact complete_inv (by simpa using hs.memory_canonical) (by simpa using hs.memory_in_range)
      (by simpa using hs.capacity) (by simpa using hr) p
  | jump p => exact complete_inv hs.memory_canonical hs.memory_in_range hs.capacity hr p
  | store addr v p =>
    obtain ⟨_, _, _, -, -, -, -, hfit⟩ := hfits
    exact complete_inv (s := s.storeWord addr v) (Memory.writeBytes_wf _ hs.memory_canonical _)
      (writeBytes_in_range hs (by rwa [length_littleEndianBytes])) hs.capacity hr p
  | halt p =>
    exact complete_inv (s := s.setHalted) hs.memory_canonical hs.memory_in_range hs.capacity hr p
  | fault f => exact raiseFault_inv hs hr f

/-- The invariant is kept by every step: a running core's by the effect of the instruction or by the
fault raised before it, and a stopped core's because it does not move. -/
theorem step_inv {s t : State} (hs : s.Inv) (hstep : step s = .next t) : t.Inv := by
  cases hr : s.status with
  | running =>
    obtain ⟨i, -, hexec⟩ | ⟨f, -, hraise⟩ := step_running hr
    · obtain ⟨e, hfits, rfl⟩ := exists_effect_of_exec (hexec.symm.trans hstep)
      exact Effect.apply_inv hs hr hfits
    · cases hraise.symm.trans hstep
      exact raiseFault_inv hs hr f
  | halted =>
    simp only [step, hr] at hstep
    cases hstep
    exact hs
  | faulted f =>
    simp only [step, hr] at hstep
    cases hstep

/-- Settles O3, from the effects that fit an instruction. -/
theorem stepKeepsInvariant : Obligations.StepKeepsInvariant := by
  unfold Obligations.StepKeepsInvariant
  exact fun s t => step_inv

/-! Stopped cores. -/

theorem step_of_halted {s : State} (h : s.status = .halted) : step s = .next s := by
  simp only [step, h]

theorem step_of_faulted {s : State} {f : Fault} (h : s.status = .faulted f) :
    step s = .fault f := by
  simp only [step, h]

/-- Settles O18: the two stopped arms of the step. -/
theorem stoppedCoreTakesNoStep : Obligations.StoppedCoreTakesNoStep := by
  unfold Obligations.StoppedCoreTakesNoStep
  exact fun s => ⟨step_of_halted, fun f => step_of_faulted⟩

/-! Runs. -/

theorem advance_of_stopped {s : State} (h : s.status ≠ .running) : s.advance = s := by
  cases hs : s.status with
  | running => exact absurd hs h
  | halted => simp only [State.advance, step_of_halted hs]
  | faulted f => simp only [State.advance, step_of_faulted hs]

theorem advance_inv {s : State} (hs : s.Inv) : s.advance.Inv := by
  unfold State.advance
  split
  · exact step_inv hs ‹_›
  · exact hs
  · exact hs

/-- The invariant holds after any number of steps. -/
theorem iterate_advance_inv {s : State} (hs : s.Inv) (k : ℕ) : (State.advance^[k] s).Inv :=
  Function.Iterate.rec State.Inv hs (fun _ => advance_inv) k

theorem iterate_advance_of_stopped {s : State} (h : s.status ≠ .running) (k : ℕ) :
    State.advance^[k] s = s :=
  Function.iterate_fixed (advance_of_stopped h) k

/-- A stopped core does not move, so a run of at most `k` steps ends as `k` steps do. -/
theorem run_eq_ending_iterate (k : ℕ) (s : State) : run k s = (State.advance^[k] s).ending := by
  induction k generalizing s with
  | zero => rfl
  | succ k ih =>
    rw [run]
    split
    case isTrue => rw [ih, Function.iterate_succ_apply]
    case isFalse h => rw [iterate_advance_of_stopped h]

/-- Once stopped, a longer run ends in the same state. -/
theorem run_of_le {k j : ℕ} {s : State} (hk : k ≤ j)
    (h : (State.advance^[k] s).status ≠ .running) : run j s = run k s := by
  obtain ⟨d, rfl⟩ := Nat.exists_eq_add_of_le' hk
  rw [run_eq_ending_iterate, run_eq_ending_iterate, Function.iterate_add_apply,
    iterate_advance_of_stopped h]

theorem ending_eq_halted_iff (s t : State) : s.ending = .halted t ↔ s = t ∧ s.status = .halted := by
  unfold State.ending
  split <;> simp_all

theorem ending_eq_faulted_iff (s t : State) (f : Fault) :
    s.ending = .faulted t f ↔ s = t ∧ s.status = .faulted f := by
  unfold State.ending
  split <;> simp_all

theorem ending_eq_notEnded_iff (s t : State) :
    s.ending = .notEnded t ↔ s = t ∧ s.status = .running := by
  unfold State.ending
  split <;> simp_all

/-- Settles O26: the end of a run is the state after so many steps, of which the invariant holds,
and which no further step changes once it has stopped. -/
theorem runEndsInOneOfTwoWaysAndStaysEnded : Obligations.RunEndsInOneOfTwoWaysAndStaysEnded := by
  unfold Obligations.RunEndsInOneOfTwoWaysAndStaysEnded
  intro k s hs
  have hinv := iterate_advance_inv hs k
  have hlonger := fun j hk => run_of_le (k := k) (j := j) (s := s) hk
  have hrun := run_eq_ending_iterate k s
  refine ⟨fun t hend => ?halted, fun t f hend => ?faulted, fun t hend => ?notEnded⟩
  case halted =>
    obtain ⟨rfl, hstatus⟩ := (ending_eq_halted_iff _ t).1 (hrun.symm.trans hend)
    exact ⟨hstatus, hinv.halted_iff.2 hstatus,
      fun j hk => (hlonger j hk (by simp [hstatus])).trans hend⟩
  case faulted =>
    obtain ⟨rfl, hstatus⟩ := (ending_eq_faulted_iff _ t f).1 (hrun.symm.trans hend)
    exact ⟨hstatus, by simpa [hstatus] using hinv.halted_iff,
      fun j hk => (hlonger j hk (by simp [hstatus])).trans hend⟩
  case notEnded =>
    obtain ⟨rfl, hstatus⟩ := (ending_eq_notEnded_iff _ t).1 (hrun.symm.trans hend)
    exact hinv.active hstatus

end Sys2Proof.Machine
end

section
/-! PROOFS. The encoder against the decoder: the word of an instruction decodes to it, the word that
was decoded is the instruction's, and the row it matches is the instruction's alone
(spec/30_encoding.md sections 3 to 5). -/

namespace Sys2Proof

/-! A word is put together again from its fields. -/

theorem regBits_rdOf (w : Word) : regBits (rdOf w) = w.extractLsb' 7 5 := rfl
theorem regBits_rs1Of (w : Word) : regBits (rs1Of w) = w.extractLsb' 15 5 := rfl
theorem regBits_rs2Of (w : Word) : regBits (rs2Of w) = w.extractLsb' 20 5 := rfl

/-- Adjacent fields side by side, the whole word in the end. -/
theorem encodeR_fields {w : Word} (hop : opcodeOf w = 0x33#7) :
    encodeR (funct7Of w) (funct3Of w) (rdOf w) (rs1Of w) (rs2Of w) = w := by
  rw [encodeR, ← hop, regBits_rdOf, regBits_rs1Of, regBits_rs2Of, funct7Of, funct3Of, opcodeOf]
  ext i hi
  simp only [BitVec.getElem_append, BitVec.getElem_extractLsb']
  grind

theorem encodeI_fields (w : Word) :
    encodeI (opcodeOf w) (funct3Of w) (rdOf w) (rs1Of w) (fieldI w) = w := by
  rw [encodeI, regBits_rdOf, regBits_rs1Of, fieldI, funct3Of, opcodeOf]
  ext i hi
  simp only [BitVec.getElem_append, BitVec.getElem_extractLsb']
  grind

theorem encodeShift_fields {w : Word} (hop : opcodeOf w = 0x13#7) (h7 : funct7Of w = 0b0000000#7) :
    encodeShift (funct3Of w) (rdOf w) (rs1Of w) (shamtOf w) = w := by
  rw [encodeShift, ← hop, ← h7, regBits_rdOf, regBits_rs1Of, funct7Of, shamtOf, funct3Of, opcodeOf]
  ext i hi
  simp only [BitVec.getElem_append, BitVec.getElem_extractLsb']
  grind

theorem encodeS_fields {w : Word} (hop : opcodeOf w = 0x23#7) :
    encodeS (funct3Of w) (rs2Of w) (rs1Of w) (fieldS w) = w := by
  rw [encodeS, ← hop, regBits_rs2Of, regBits_rs1Of, fieldS, funct3Of, opcodeOf]
  ext i hi
  simp only [BitVec.getElem_append, BitVec.getElem_extractLsb']
  grind

theorem encodeB_fields {w : Word} (hop : opcodeOf w = 0x63#7) :
    encodeB (funct3Of w) (rs1Of w) (rs2Of w) (fieldB w) = w := by
  rw [encodeB, ← hop, regBits_rs2Of, regBits_rs1Of, fieldB, funct3Of, opcodeOf]
  ext i hi
  simp only [BitVec.getElem_append, BitVec.getElem_extractLsb', BitVec.getLsbD_append,
    BitVec.getLsbD_extractLsb']
  grind

theorem encodeU_fields {w : Word} (hop : opcodeOf w = 0x37#7) :
    encodeU (rdOf w) (fieldU w) = w := by
  rw [encodeU, ← hop, regBits_rdOf, fieldU, opcodeOf]
  ext i hi
  simp only [BitVec.getElem_append, BitVec.getElem_extractLsb']
  grind

theorem encodeJ_fields {w : Word} (hop : opcodeOf w = 0x6F#7) :
    encodeJ (rdOf w) (fieldJ w) = w := by
  rw [encodeJ, ← hop, regBits_rdOf, fieldJ, opcodeOf]
  ext i hi
  simp only [BitVec.getElem_append, BitVec.getElem_extractLsb', BitVec.getLsbD_append,
    BitVec.getLsbD_extractLsb']
  grind

/-! Encoding what was decoded. -/

/-- Bit 0 of a decoded branch offset is the 0 bit below its pieces (R65). -/
theorem evenOffset_fieldB (w : Word) : evenOffset (fieldB w) = true := by
  rw [evenOffset_iff, fieldB, BitVec.getLsbD_append]
  rfl

/-- Bit 0 of a decoded jump offset is the 0 bit below its pieces (R67). -/
theorem evenOffset_fieldJ (w : Word) : evenOffset (fieldJ w) = true := by
  rw [evenOffset_iff, fieldJ, BitVec.getLsbD_append]
  rfl

section

variable {w : Word} {i : Instr}

theorem encode_of_decodeRegReg (hop : opcodeOf w = 0x33#7) (h : decodeRegReg w = .ok i) :
    i.wellFormed = true ∧ encode i = w := by
  have hw := encodeR_fields hop
  unfold decodeRegReg at h
  split at h
  case h_9 => cases h
  all_goals
    rename_i h7 h3
    cases h
    rw [h7, h3] at hw
    exact ⟨rfl, hw⟩

theorem encode_of_decodeRegImm (hop : opcodeOf w = 0x13#7) (h : decodeRegImm w = .ok i) :
    i.wellFormed = true ∧ encode i = w := by
  have hw := encodeI_fields w
  rw [hop] at hw
  unfold decodeRegImm decodeShiftImm at h
  split at h
  case h_8 => cases h
  case h_2 h3 | h_5 h3 =>
    split at h
    case isFalse => cases h
    case isTrue h7 =>
      have hshift := encodeShift_fields hop h7
      cases h
      rw [h3] at hshift
      exact ⟨rfl, hshift⟩
  all_goals
    rename_i h3
    cases h
    rw [h3] at hw
    exact ⟨rfl, hw⟩

theorem encode_of_decodeLoad (hop : opcodeOf w = 0x03#7) (h : decodeLoad w = .ok i) :
    i.wellFormed = true ∧ encode i = w := by
  have hw := encodeI_fields w
  unfold decodeLoad at h
  split at h
  case h_1 h3 =>
    cases h
    rw [hop, h3] at hw
    exact ⟨rfl, hw⟩
  case h_2 => cases h

theorem encode_of_decodeStore (hop : opcodeOf w = 0x23#7) (h : decodeStore w = .ok i) :
    i.wellFormed = true ∧ encode i = w := by
  have hw := encodeS_fields hop
  unfold decodeStore at h
  split at h
  case h_1 h3 =>
    cases h
    rw [h3] at hw
    exact ⟨rfl, hw⟩
  case h_2 => cases h

theorem encode_of_decodeBranch (hop : opcodeOf w = 0x63#7) (h : decodeBranch w = .ok i) :
    i.wellFormed = true ∧ encode i = w := by
  have hw := encodeB_fields hop
  unfold decodeBranch at h
  split at h
  case h_3 => cases h
  all_goals
    rename_i h3
    cases h
    rw [h3] at hw
    exact ⟨evenOffset_fieldB w, hw⟩

/-- A decoded instruction is well-formed, and the word is its encoding or one of the words that the
opcode alone makes ECALL (R75). -/
theorem encode_of_decode (h : decode w = .ok i) :
    i.wellFormed = true ∧ (encode i = w ∨ i = .ecall ∧ opcodeOf w = 0x73#7) := by
  unfold decode at h
  split at h
  case h_1 hop => exact (encode_of_decodeRegReg hop h).imp_right .inl
  case h_2 hop => exact (encode_of_decodeRegImm hop h).imp_right .inl
  case h_3 hop => exact (encode_of_decodeLoad hop h).imp_right .inl
  case h_4 hop => exact (encode_of_decodeStore hop h).imp_right .inl
  case h_5 hop => exact (encode_of_decodeBranch hop h).imp_right .inl
  case h_6 hop =>
    cases h
    exact ⟨rfl, .inl (encodeU_fields hop)⟩
  case h_7 hop =>
    cases h
    exact ⟨evenOffset_fieldJ w, .inl (encodeJ_fields hop)⟩
  case h_8 hop =>
    cases h
    exact ⟨rfl, .inr ⟨rfl, hop⟩⟩
  case h_9 => cases h

end

/-- Settles O5, by the tables of the opcodes. -/
theorem encodeOfDecodeIsTheWord : Obligations.EncodeOfDecodeIsTheWord := by
  unfold Obligations.EncodeOfDecodeIsTheWord
  intro w i h
  obtain ⟨hwf, hword⟩ := encode_of_decode h
  exact ⟨hwf, fun hi => hword.resolve_right fun hecall => hi hecall.1⟩

/-! Decoding what was encoded. -/

theorem decode_encode {i : Instr} (h : i.wellFormed = true) : decode (encode i) = .ok i := by
  cases i with
  | add | sub | sll | slt | xor | srl | or | and => simp [encode, decode, decodeRegReg]
  | addi | slti | xori | ori | andi => simp [encode, decode, decodeRegImm]
  | slli | srli => simp [encode, decode, decodeRegImm, decodeShiftImm]
  | lw => simp [encode, decode, decodeLoad]
  | sw => simp [encode, decode, decodeStore]
  | beq rs1 rs2 offset | bne rs1 rs2 offset =>
    simp [encode, decode, decodeBranch, fieldB_encodeB _ _ _ (show evenOffset offset = true from h)]
  | lui => simp [encode, decode]
  | jal rd offset =>
    simp [encode, decode, fieldJ_encodeJ rd (show evenOffset offset = true from h)]
  | ecall => exact decode_of_opcode_ecall rfl

/-- Settles O4: the fields of an encoded word select its own entry and give its own operands. -/
theorem decodeOfEncodeIsTheInstruction : Obligations.DecodeOfEncodeIsTheInstruction := by
  unfold Obligations.DecodeOfEncodeIsTheInstruction
  exact fun i => decode_encode

/-- Settles O10: each word is evaluated by the decoder. -/
theorem exampleWordsDecode : Obligations.ExampleWordsDecode := by
  unfold Obligations.ExampleWordsDecode
  decide

/-! The rows. -/

theorem rowOf_mem_opcodeRows (i : Instr) : rowOf i ∈ opcodeRows := by
  cases i <;> simp [opcodeRows, rowOf]

/-- The word of an instruction matches its row (R70 to R75). -/
theorem rowOf_matches_encode (i : Instr) : (rowOf i).matches (encode i) := by
  cases i with
  | add => exact Laws.EncodesToItsRow.add _ _ _
  | sub => exact Laws.EncodesToItsRow.sub _ _ _
  | sll => exact Laws.EncodesToItsRow.sll _ _ _
  | slt => exact Laws.EncodesToItsRow.slt _ _ _
  | xor => exact Laws.EncodesToItsRow.xor _ _ _
  | srl => exact Laws.EncodesToItsRow.srl _ _ _
  | or => exact Laws.EncodesToItsRow.or _ _ _
  | and => exact Laws.EncodesToItsRow.and _ _ _
  | addi => exact Laws.EncodesToItsRow.addi _ _ _
  | slli => exact Laws.EncodesToItsRow.slli _ _ _
  | slti => exact Laws.EncodesToItsRow.slti _ _ _
  | xori => exact Laws.EncodesToItsRow.xori _ _ _
  | srli => exact Laws.EncodesToItsRow.srli _ _ _
  | ori => exact Laws.EncodesToItsRow.ori _ _ _
  | andi => exact Laws.EncodesToItsRow.andi _ _ _
  | lw => exact Laws.EncodesToItsRow.lw _ _ _
  | sw => exact Laws.EncodesToItsRow.sw _ _ _
  | beq => exact Laws.EncodesToItsRow.beq _ _ _
  | bne => exact Laws.EncodesToItsRow.bne _ _ _
  | lui => exact Laws.EncodesToItsRow.lui _ _
  | jal => exact Laws.EncodesToItsRow.jal _ _
  | ecall => exact Laws.EncodesToItsRow.ecall

/-- A decoded word matches the row of its instruction. -/
theorem rowOf_matches_of_decode {w : Word} {i : Instr} (h : decode w = .ok i) :
    (rowOf i).matches w := by
  obtain ⟨-, rfl | ⟨rfl, hop⟩⟩ := encode_of_decode h
  · exact rowOf_matches_encode i
  · exact (and_mask_opcode_eq_iff w (by decide)).2 hop

/-- Two rows a word could match agree on the bits that both fix. -/
theorem pattern_and_mask_of_matches {r q : OpcodeRow} {w : Word} (hr : r.matches w)
    (hq : q.matches w) : r.pattern &&& q.mask = q.pattern &&& r.mask := by
  have hr : w &&& r.mask = r.pattern := hr
  have hq : w &&& q.mask = q.pattern := hq
  rw [← hr, ← hq, BitVec.and_assoc, BitVec.and_assoc, BitVec.and_comm r.mask]

/-- Any two of the 22 rows differ in a bit that both fix. -/
theorem eq_of_pattern_and_mask : ∀ r ∈ opcodeRows, ∀ q ∈ opcodeRows,
    r.pattern &&& q.mask = q.pattern &&& r.mask → r = q := by
  decide

/-- Settles O6: a decoded word matches its instruction's row, which shares no word with another; an
undecoded one is illegal. -/
theorem exactlyOneRowAppliesOrNone : Obligations.ExactlyOneRowAppliesOrNone := by
  unfold Obligations.ExactlyOneRowAppliesOrNone
  intro w
  cases hd : decode w with
  | ok i =>
    have hi := rowOf_matches_of_decode hd
    refine .inl ⟨i, rfl, rowOf_mem_opcodeRows i, fun r hr => ⟨fun hmatch => ?_, ?_⟩⟩
    · exact eq_of_pattern_and_mask r hr _ (rowOf_mem_opcodeRows i)
        (pattern_and_mask_of_matches hmatch hi)
    · rintro rfl
      exact hi
  | error e =>
    refine .inr ⟨⟨e, rfl⟩, (illegalWord_iff_forall_not_matches w).1 ?_⟩
    by_contra hlegal
    obtain ⟨i, hi⟩ := exists_decode_eq_ok_of_not_illegalWord hlegal
    cases hi.symm.trans hd

namespace Machine

/-- Settles O16: the step performs what the word decodes to, and an encoded word decodes to its
instruction. -/
theorem stepRunsTheDecodedInstruction : Obligations.StepRunsTheDecodedInstruction := by
  unfold Obligations.StepRunsTheDecodedInstruction
  refine fun s i hs hpc => ⟨step_of_decode_ok hs.1 hpc, fun hi hw => ?_⟩
  exact step_of_decode_ok hs.1 hpc (by rw [hw, decode_encode hi])

end Machine

end Sys2Proof
end

section
/-! PROOFS. Words in memory: what a stored word reads as, whole, in parts and as the next
instruction (spec/20_memory.md R35, R36, R41, spec/43_load_store.md R120,
spec/70_reset_and_hazards.md R173). -/

namespace Sys2Proof.Machine

/-! A word stored. -/

theorem memWrite_word_of_fits {s : State} {a : Word} (hfit : a.toNat + 4 ≤ s.cfg.memCapacity)
    (v : Word) (access : Access) : s.memWrite a .word v access = .ok (s.storeWord a v) := by
  rw [memWrite_eq]
  exact if_pos hfit

theorem memWrite_word_ok {s t : State} {a v : Word} {access : Access}
    (h : s.memWrite a .word v access = .ok t) :
    a.toNat + 4 ≤ s.cfg.memCapacity ∧ t = s.storeWord a v :=
  memWrite_ok h

theorem memRead_word_of_fits {s : State} {a : Word} (hfit : a.toNat + 4 ≤ s.cfg.memCapacity)
    (access : Access) : s.memRead a .word access = .ok (wordAt s a.toNat) := by
  rw [memRead_eq, wordAt_eq]
  exact if_pos hfit

/-- The four bytes of a stored word are its value again (R35, R36). -/
theorem wordAt_storeWord {s : State} (hm : s.mem.wf) (a v : Word) :
    wordAt (s.storeWord a v) a.toNat = v := by
  have hbytes : (s.storeWord a v).mem.readBytes a.toNat 4 = littleEndianBytes 4 v.toNat := by
    simpa only [length_littleEndianBytes, storeWord_mem] using
      Memory.readBytes_writeBytes (littleEndianBytes 4 v.toNat) hm a.toNat
  rw [wordAt_eq, hbytes, littleEndian_littleEndianBytes]
  exact BitVec.eq_of_toNat_eq (by have := v.isLt; simp only [BitVec.toNat_ofNat]; omega)

/-- A word depends on its four bytes alone. -/
theorem wordAt_congr {s t : State} {a : ℕ} (h : ∀ k < 4, t.mem.read (a + k) = s.mem.read (a + k)) :
    wordAt t a = wordAt s a := by
  rw [wordAt_eq, wordAt_eq, Memory.readBytes_congr fun x hlo hhi => ?_]
  obtain ⟨k, rfl⟩ := Nat.exists_eq_add_of_le hlo
  exact h k (by omega)

/-- Settles O15: the word at the address is the stored value, in every state with the same four
bytes. -/
theorem storedWordLoadsBack : Obligations.StoredWordLoadsBack := by
  unfold Obligations.StoredWordLoadsBack
  intro s a v ac ac' hm hfit
  have hstored := wordAt_storeWord hm a v
  refine ⟨_, memWrite_word_of_fits hfit v ac, ?_, fun u hcfg hbytes => ?_⟩
  · rw [memRead_word_of_fits (by rwa [storeWord_cfg]), hstored]
  · rw [memRead_word_of_fits (by rwa [hcfg, storeWord_cfg]), wordAt_congr hbytes, hstored]

/-! Parts of a stored word. -/

/-- Byte `k` of a stored word (R36). -/
theorem read_storeWord_inside {s : State} (hm : s.mem.wf) (a v : Word) {k : ℕ} (hk : k < 4) :
    ((s.storeWord a v).mem.read (a.toNat + k)).toNat = slice v (8 * k + 7) (8 * k) :=
  Memory.read_writeBytes_littleEndian hm a.toNat v hk

theorem read_storeWord_outside {s : State} (hm : s.mem.wf) {a v : Word} {x : ℕ}
    (hx : x < a.toNat ∨ a.toNat + 4 ≤ x) : (s.storeWord a v).mem.read x = s.mem.read x :=
  Memory.read_writeBytes_outside hm (by rwa [length_littleEndianBytes])

/-- An address inside a word that lies in memory does not wrap: there are at most `2^32` bytes. -/
theorem toNat_add_of_fits {a : Word} {n k : ℕ} (hfit : a.toNat + 4 ≤ n) (hn : n ≤ 2 ^ 32)
    (hk : k < 4) : (a + BitVec.ofNat 32 k).toNat = a.toNat + k := by
  rw [BitVec.toNat_add, BitVec.toNat_ofNat]
  omega

theorem memRead_byte_of_fits {s : State} {a : Word} (hfit : a.toNat + 1 ≤ s.cfg.memCapacity)
    (access : Access) :
    s.memRead a .byte access = .ok (BitVec.ofNat 32 (s.mem.read a.toNat).toNat) := by
  rw [memRead_eq]
  exact if_pos hfit

theorem memRead_half_of_fits {s : State} {a : Word} (hfit : a.toNat + 2 ≤ s.cfg.memCapacity)
    (access : Access) : s.memRead a .half access = .ok (BitVec.ofNat 32
      ((s.mem.read a.toNat).toNat + 256 * (s.mem.read (a.toNat + 1)).toNat)) := by
  rw [memRead_eq]
  exact if_pos hfit

/-- The upper half of a word, from its two bytes. -/
theorem slice_upper_half (v : Word) : slice v 23 16 + 256 * slice v 31 24 = slice v 31 16 := by
  unfold slice
  omega

/-- Settles O14: each byte of a word is a slice of it, the upper half is its two bytes, and a store
of another word over part of the first replaces the bytes it covers. -/
theorem widthsSeeOneAnothersBytes : Obligations.WidthsSeeOneAnothersBytes := by
  unfold Obligations.WidthsSeeOneAnothersBytes
  intro s t a v access hs hwrite
  obtain ⟨hfit, rfl⟩ := memWrite_word_ok hwrite
  have haddr {k : ℕ} (hk : k < 4) : (a + BitVec.ofNat 32 k).toNat = a.toNat + k :=
    toNat_add_of_fits hfit hs.capacity hk
  have hbyte {k : ℕ} (hk : k < 4) := read_storeWord_inside hs.memory_canonical a v hk
  refine ⟨fun k hk => ?byte, ?half, fun v' d u hd hwrite' => ?overlap⟩
  case byte =>
    rw [memRead_byte_of_fits (by rw [haddr hk, storeWord_cfg]; omega), haddr hk, hbyte hk]
  case half =>
    have h2 : (a + 2).toNat = a.toNat + 2 := haddr (k := 2) (by decide)
    rw [memRead_half_of_fits (by rw [h2, storeWord_cfg]; omega), h2, hbyte (k := 2) (by decide),
      add_assoc, hbyte (k := 3) (by decide), slice_upper_half]
  case overlap =>
    have hd : 0 < d ∧ d < 4 := by
      simp only [List.mem_cons, List.not_mem_nil, or_false] at hd
      omega
    have hm := Memory.writeBytes_wf (littleEndianBytes 4 v.toNat) hs.memory_canonical a.toNat
    obtain ⟨-, rfl⟩ := memWrite_word_ok hwrite'
    constructor
    · intro k hk
      rw [read_storeWord_outside hm (by rw [haddr hd.2]; omega), hbyte (by omega)]
    · intro k hk
      rw [← haddr hd.2, read_storeWord_inside hm _ v' hk]

/-! A word stored over the next instruction. -/

/-- What SW in range leaves, as far as the next fetch is concerned. -/
theorem exists_of_exec_sw {s : State} (hm : s.mem.wf) (hs : s.Active) (rs2 : RegIdx) {rs1 : RegIdx}
    {imm : BitVec 12} (hfit : (effectiveAddress s rs1 imm).toNat + 4 ≤ s.cfg.memCapacity) :
    ∃ t, exec (.sw rs2 rs1 imm) s = .next t ∧ t.pc = s.pcPlus4 ∧ t.cfg = s.cfg ∧
      t.status = .running ∧ wordAt t (effectiveAddress s rs1 imm).toNat = s.readReg rs2 :=
  ⟨_, exec_sw_of_fits rs2 hfit, rfl, rfl,
    (complete_status_of_not_halted (s := s.storeWord _ _) hs.2 _).trans hs.1,
    wordAt_storeWord hm _ _⟩

/-- Settles O25: SW leaves the word at its effective address, which is where the pc goes, so the
fetch reads it and the step performs what it decodes to. -/
theorem storeIsSeenByTheNextFetch : Obligations.StoreIsSeenByTheNextFetch := by
  unfold Obligations.StoreIsSeenByTheNextFetch
  intro rs2 rs1 imm s hinv hs hnext hfit
  obtain ⟨t, hexec, hpc, hcfg, hrun, hword⟩ := exists_of_exec_sw hinv.memory_canonical hs rs2 hfit
  have haddr : effectiveAddress s rs1 imm = t.pc := by rw [hpc, pcPlus4_eq_u32, hnext]
  rw [haddr] at hfit hword
  rw [← hcfg] at hfit
  refine ⟨t, hexec, (fetchWord_eq hfit).trans (by rw [hword]), fun i hd => ?_⟩
  exact step_of_decode_ok hrun hfit (hword ▸ hd)

end Sys2Proof.Machine
end

section
/-! PROOFS. Images: the segments one after another, the launch state they leave, and the first that
does not fit (spec/20_memory.md R38, spec/70_reset_and_hazards.md R168). -/

namespace Sys2Proof.Machine

/-! One block. -/

theorem loadBlock_of_fits {s : State} {base : Word} {bytes : List Byte}
    (hfit : base.toNat + bytes.length ≤ s.cfg.memCapacity) :
    s.loadBlock base bytes = .ok { s with mem := s.mem.writeBytes base.toNat bytes } := by
  rw [loadBlock_eq, if_pos hfit]

theorem loadBlock_of_overflow {s : State} {base : Word} {bytes : List Byte}
    (hover : s.cfg.memCapacity < base.toNat + bytes.length) :
    s.loadBlock base bytes = .error (.memoryOverflow base.toNat bytes.length) := by
  rw [loadBlock_eq, if_neg (Nat.not_le_of_lt hover)]

/-! The segments in order. -/

theorem loadImage_append (s : State) (before after : List (Word × List Byte)) :
    s.loadImage (before ++ after) =
      match s.loadImage before with
      | .ok t => t.loadImage after
      | .error e => .error e := by
  induction before generalizing s with
  | nil => rfl
  | cons g before ih =>
    rw [List.cons_append, State.loadImage, State.loadImage]
    cases s.loadBlock g.1 g.2 with
    | ok t => exact ih t
    | error e => rfl

/-- The last segment decides about the addresses it covers (R168). -/
theorem imageByte_concat (image : List (Word × List Byte)) (g : Word × List Byte) (a : ℕ) :
    imageByte (image ++ [g]) a =
      if g.1.toNat ≤ a ∧ a < g.1.toNat + g.2.length then g.2.getD (a - g.1.toNat) 0
      else imageByte image a := by
  unfold imageByte
  by_cases hcover : g.1.toNat ≤ a ∧ a < g.1.toNat + g.2.length
  · simp [List.filter_append, hcover]
  · simp [List.filter_append, hcover]

/-- What loading an image into the reset state has come to: the memory holds the image, and nothing
else has changed. -/
structure Loaded (c : Config) (image : List (Word × List Byte)) (s : State) : Prop where
  eq_reset : s = { State.resetWith c with mem := s.mem }
  canonical : s.mem.wf
  holds : ∀ a, s.mem.read a = imageByte image a

theorem Loaded.cfg {c : Config} {image : List (Word × List Byte)} {s : State}
    (h : Loaded c image s) : s.cfg = c := by
  rw [h.eq_reset, resetWith_cfg]

theorem loaded_nil (c : Config) : Loaded c [] (State.resetWith c) :=
  ⟨rfl, by simp [Memory.wf], fun _ => rfl⟩

/-- One more segment that fits. -/
theorem Loaded.concat {c : Config} {image : List (Word × List Byte)} {s : State}
    (h : Loaded c image s) {g : Word × List Byte} :
    Loaded c (image ++ [g]) { s with mem := s.mem.writeBytes g.1.toNat g.2 } where
  eq_reset := by rw [h.eq_reset]
  canonical := Memory.writeBytes_wf g.2 h.canonical g.1.toNat
  holds a := by
    rw [imageByte_concat, ← h.holds]
    exact Memory.read_writeBytes g.2 h.canonical g.1.toNat a

/-- An image whose segments all fit is loaded. -/
theorem exists_loaded {c : Config} {image : List (Word × List Byte)}
    (hfit : ∀ g ∈ image, g.1.toNat + g.2.length ≤ c.memCapacity) :
    ∃ s, (State.resetWith c).loadImage image = .ok s ∧ Loaded c image s := by
  induction image using List.reverseRecOn with
  | nil => exact ⟨_, rfl, loaded_nil c⟩
  | append_singleton image g ih =>
    obtain ⟨s, hs, hloaded⟩ := ih fun f hf => hfit f (by simp [hf])
    have hg : g.1.toNat + g.2.length ≤ s.cfg.memCapacity := by
      rw [hloaded.cfg]
      exact hfit g (by simp)
    refine ⟨_, ?_, hloaded.concat⟩
    rw [loadImage_append, hs]
    simp only [State.loadImage, loadBlock_of_fits hg]

/-! The launch. -/

/-- Launching fails with the first segment that does not fit (log 17). -/
theorem launch_of_overflow {c : Config} {before : List (Word × List Byte)} {g : Word × List Byte}
    (hbefore : ∀ f ∈ before, f.1.toNat + f.2.length ≤ c.memCapacity)
    (hover : c.memCapacity < g.1.toNat + g.2.length) (after : List (Word × List Byte))
    (entry : Word) :
    launch c (before ++ g :: after) entry = .error (.memoryOverflow g.1.toNat g.2.length) := by
  obtain ⟨s, hs, hloaded⟩ := exists_loaded hbefore
  have hg : s.loadBlock g.1 g.2 = .error (.memoryOverflow g.1.toNat g.2.length) :=
    loadBlock_of_overflow (by rwa [hloaded.cfg])
  simp only [launch, loadImage_append, hs, State.loadImage, hg]

/-- Of the segments that do not fit there is a first. -/
theorem exists_first_overflow {c : Config} {image : List (Word × List Byte)}
    (h : ∃ g ∈ image, c.memCapacity < g.1.toNat + g.2.length) :
    ∃ before g after, image = before ++ g :: after ∧
      (∀ f ∈ before, f.1.toNat + f.2.length ≤ c.memCapacity) ∧
      c.memCapacity < g.1.toNat + g.2.length := by
  obtain ⟨g, hg⟩ : ∃ g, image.find? (fun f => c.memCapacity < f.1.toNat + f.2.length) = some g := by
    simpa [← Option.isSome_iff_exists] using h
  obtain ⟨hover, before, after, rfl, hbefore⟩ := List.find?_eq_some_iff_append.1 hg
  exact ⟨before, g, after, rfl, by simpa using hbefore, by simpa using hover⟩

/-- Settles O53: the segments leave the image over the reset state, and SetPc the entry; of segments
that do not fit the first is refused. -/
theorem launchStateHoldsTheImage : Obligations.LaunchStateHoldsTheImage := by
  unfold Obligations.LaunchStateHoldsTheImage
  refine fun c image entry => ⟨fun hfit => ?fits, fun h => ?overflow⟩
  case fits =>
    obtain ⟨s, hs, hloaded⟩ := exists_loaded hfit
    refine ⟨s.setPc entry, by rw [launch, hs], fun i => ?_, rfl, ?_, ?_, hloaded.cfg, hloaded.holds⟩
    · rw [hloaded.eq_reset]
      exact readReg_resetWith c i
    · rw [hloaded.eq_reset]
      rfl
    · rw [hloaded.eq_reset]
      rfl
  case overflow =>
    obtain ⟨before, g, after, rfl, hbefore, hover⟩ := exists_first_overflow h
    exact ⟨_, _, launch_of_overflow hbefore hover after entry⟩

end Sys2Proof.Machine
end

section
/-! PROOFS. The object loader: what it refuses, what a loaded file holds, and the one segment it
copies (spec/70_reset_and_hazards.md R162 to R167). -/

namespace Sys2Proof.Machine

/-! The format check. -/

/-- A sequence of two loader operations gives no error that neither gives. -/
theorem exceptBind_ne_error {α β : Type} {x : Except HostError α} {f : α → Except HostError β}
    {e : HostError} (hx : x ≠ .error e) (hf : ∀ a, f a ≠ .error e) : (x >>= f) ≠ .error e := by
  cases x with
  | ok a => exact hf a
  | error d => exact fun h => hx (by cases h; rfl)

theorem fileField_ne_invalidFormat (file : List Byte) (offset n : ℕ) :
    fileField file offset n ≠ .error .invalidFormat := by
  unfold fileField
  split <;> simp

theorem readElfHeader_ne_invalidFormat (file : List Byte) :
    readElfHeader file ≠ .error .invalidFormat := by
  unfold readElfHeader
  split
  case isTrue =>
    refine exceptBind_ne_error (fileField_ne_invalidFormat _ _ _) fun _ => ?_
    refine exceptBind_ne_error (fileField_ne_invalidFormat _ _ _) fun _ => ?_
    refine exceptBind_ne_error (fileField_ne_invalidFormat _ _ _) fun _ => ?_
    exact exceptBind_ne_error (fileField_ne_invalidFormat _ _ _) fun _ => nofun
  case isFalse => simp

theorem readProgramHeader_ne_invalidFormat (file : List Byte) (offset : ℕ) :
    readProgramHeader file offset ≠ .error .invalidFormat := by
  unfold readProgramHeader
  refine exceptBind_ne_error (fileField_ne_invalidFormat _ _ _) fun _ => ?_
  refine exceptBind_ne_error (fileField_ne_invalidFormat _ _ _) fun _ => ?_
  refine exceptBind_ne_error (fileField_ne_invalidFormat _ _ _) fun _ => ?_
  refine exceptBind_ne_error (fileField_ne_invalidFormat _ _ _) fun _ => ?_
  exact exceptBind_ne_error (fileField_ne_invalidFormat _ _ _) fun _ => nofun

theorem loadBlock_ne_invalidFormat (s : State) (base : Word) (bytes : List Byte) :
    s.loadBlock base bytes ≠ .error .invalidFormat := by
  rw [loadBlock_eq]
  split <;> simp

theorem loadSegment_ne_invalidFormat (file : List Byte) (p : ProgramHeader) (s : State) :
    loadSegment file p s ≠ .error .invalidFormat := by
  by_cases hl : p.segmentType = 1
  case pos =>
    rw [loadSegment_loadable s hl]
    split
    case isTrue =>
      split
      case isTrue => exact loadBlock_ne_invalidFormat _ _ _
      case isFalse => simp
    case isFalse => simp
  case neg => simp [loadSegment_discarded s hl]

theorem loadSegments_ne_invalidFormat (file : List Byte) (entrySize offset n : ℕ) (s : State) :
    loadSegments file entrySize offset n s ≠ .error .invalidFormat := by
  induction n generalizing offset s with
  | zero => exact nofun
  | succ n ih =>
    exact exceptBind_ne_error (readProgramHeader_ne_invalidFormat _ _) fun p =>
      exceptBind_ne_error (loadSegment_ne_invalidFormat _ _ _) fun t => ih _ t

/-- With the magic, whatever else is wrong with the file is another error (log 9). -/
theorem loadElf_ne_invalidFormat {file : List Byte} (hm : file.take 4 = elfMagic) (s : State) :
    loadElf file s ≠ .error .invalidFormat := by
  rw [loadElf, if_pos hm]
  cases hh : readElfHeader file with
  | error e => exact fun h => readElfHeader_ne_invalidFormat file (hh.trans (by cases h; rfl))
  | ok h =>
    simp only
    split
    case isTrue =>
      exact exceptBind_ne_error (loadSegments_ne_invalidFormat _ _ _ _ _) fun _ => nofun
    case isFalse => simp

theorem launchElf_eq_error_iff (c : Config) (file : List Byte) (e : HostError) :
    launchElf c file = .error e ↔ loadElf file (State.resetWith c) = .error e := by
  rw [launchElf]
  cases loadElf file (State.resetWith c) <;> simp

/-- Settles O54: the magic is checked first, and no later check gives InvalidFormat. -/
theorem loaderChecksTheMagicOnly : Obligations.LoaderChecksTheMagicOnly := by
  unfold Obligations.LoaderChecksTheMagicOnly
  intro c file
  rw [launchElf_eq_error_iff]
  constructor
  case mp => exact fun h hm => loadElf_ne_invalidFormat hm _ h
  case mpr => exact fun hm => if_neg hm

/-! The table. -/

/-- Every entry that was gone through was readable, and a loadable one had its bytes in the file
and its place in memory. -/
theorem loadSegments_ok {file : List Byte} {entrySize offset n : ℕ} {s t : State}
    (h : loadSegments file entrySize offset n s = .ok t) : ∀ i < n, ∃ p,
      readProgramHeader file (offset + i * entrySize) = .ok p ∧
      (p.segmentType = 1 → p.fileOffset + p.fileSize ≤ file.length ∧
        p.virtualAddress + p.fileSize ≤ s.cfg.memCapacity) := by
  induction n generalizing offset s with
  | zero => exact fun i hi => absurd hi (Nat.not_lt_zero i)
  | succ n ih =>
    obtain ⟨p, hp, h⟩ := exceptBind_ok h
    obtain ⟨u, hu, h⟩ := exceptBind_ok h
    rintro (_ | i) hi
    case zero =>
      refine ⟨p, by simpa using hp, fun hl => ?_⟩
      rw [loadSegment_loadable s hl] at hu
      split at hu
      case isTrue hmem =>
        split at hu
        case isTrue hfile => exact ⟨hfile, hmem⟩
        case isFalse => cases hu
      case isFalse => cases hu
    case succ =>
      have hoffset : offset + (i + 1) * entrySize = offset + entrySize + i * entrySize := by ring
      rw [hoffset, ← loadSegment_cfg hu]
      exact ih h i (by omega)

/-- Settles O56: the loader's checks, each passed. -/
theorem loadedFileIsWhole : Obligations.LoadedFileIsWhole := by
  unfold Obligations.LoadedFileIsWhole
  intro c file s hload
  obtain ⟨hm, h, hh, htable⟩ := launchElf_ok hload
  refine ⟨(readElfHeader_ok hh).1, h, hh, htable, ?_⟩
  rw [launchElf_eq hm hh htable] at hload
  cases ht : loadSegments file h.entrySize h.tableOffset h.count (State.resetWith c) with
  | ok t => exact loadSegments_ok ht
  | error e =>
    rw [ht] at hload
    cases hload

/-- Entries that are not loadable are passed over (R165). -/
theorem loadSegments_skip {file : List Byte} {entrySize offset j : ℕ} (s : State)
    (h : ∀ i < j, ∃ q, readProgramHeader file (offset + i * entrySize) = .ok q ∧
      q.segmentType ≠ 1) (n : ℕ) :
    loadSegments file entrySize offset (j + n) s =
      loadSegments file entrySize (offset + j * entrySize) n s := by
  induction j generalizing offset with
  | zero => simp
  | succ j ih =>
    obtain ⟨q, hq, hd⟩ := h 0 (by omega)
    rw [show j + 1 + n = j + n + 1 by omega, loadSegments_succ s (by simpa using hq),
      loadSegment_discarded s hd, show offset + (j + 1) * entrySize =
        offset + entrySize + j * entrySize by ring]
    refine ih fun i hi => ?_
    obtain ⟨q, hq, hd⟩ := h (i + 1) (by omega)
    exact ⟨q, by rw [← hq]; congr 1; ring, hd⟩

theorem loadSegment_of_overflow {file : List Byte} {p : ProgramHeader} {s : State}
    (hl : p.segmentType = 1) (hover : s.cfg.memCapacity < p.virtualAddress + p.fileSize) :
    loadSegment file p s = .error (.memoryOverflow p.virtualAddress p.fileSize) := by
  rw [loadSegment_loadable s hl, if_neg (Nat.not_le_of_lt hover)]

/-- Settles O57: a block, the first segment of an image, and the first loadable entry of a file that
does not fit are refused by name. -/
theorem memoryOverflowNamesTheBlock : Obligations.MemoryOverflowNamesTheBlock := by
  unfold Obligations.MemoryOverflowNamesTheBlock
  refine ⟨fun s base bytes => loadBlock_of_overflow, fun c before after g entry hbefore hover =>
    launch_of_overflow hbefore hover after entry, ?_⟩
  intro c file h j p hm hh htable hj hskip hp hl hover
  obtain ⟨n, hn⟩ : ∃ n, h.count = j + (n + 1) := ⟨h.count - (j + 1), by omega⟩
  rw [launchElf_eq hm hh htable, hn, loadSegments_skip _ hskip, loadSegments_succ _ hp,
    loadSegment_of_overflow hl (by rwa [resetWith_cfg])]

/-! One loadable segment. -/

/-- A table with one loadable entry, wherever it stands, is that entry's segment. -/
theorem loadSegments_of_filter_eq {file : List Byte} {entrySize offset : ℕ}
    {ps : List ProgramHeader} {p : ProgramHeader} (s : State)
    (hps : ∀ i (hi : i < ps.length),
      readProgramHeader file (offset + i * entrySize) = .ok ps[i])
    (hone : ps.filter (fun q => q.segmentType = 1) = [p]) :
    loadSegments file entrySize offset ps.length s = loadSegment file p s := by
  obtain ⟨before, after, rfl, hbefore, -, hafter⟩ := List.filter_eq_cons_iff.1 hone
  replace hbefore : ∀ q ∈ before, q.segmentType ≠ 1 := by simpa using hbefore
  replace hafter : ∀ q ∈ after, q.segmentType ≠ 1 := by simpa using hafter
  have hp : readProgramHeader file (offset + before.length * entrySize) = .ok p := by
    simpa using hps before.length (by simp)
  have hskip : ∀ i < before.length, ∃ q,
      readProgramHeader file (offset + i * entrySize) = .ok q ∧ q.segmentType ≠ 1 := by
    intro i hi
    have hq := hps i (by rw [List.length_append]; omega)
    rw [List.getElem_append_left hi] at hq
    exact ⟨_, hq, hbefore _ (List.getElem_mem hi)⟩
  have hrest : ∀ i < after.length, ∃ q,
      readProgramHeader file (offset + before.length * entrySize + entrySize + i * entrySize) =
        .ok q ∧ q.segmentType ≠ 1 := by
    intro i hi
    have hq := hps (before.length + (i + 1)) (by rw [List.length_append, List.length_cons]; omega)
    simp only [List.getElem_append_right (Nat.le_add_right _ _), Nat.add_sub_cancel_left,
      List.getElem_cons_succ] at hq
    exact ⟨_, by rw [← hq]; congr 1; ring, hafter _ (List.getElem_mem hi)⟩
  rw [List.length_append, List.length_cons, loadSegments_skip s hskip, loadSegments_succ s hp]
  cases loadSegment file p s with
  | ok t => exact loadSegments_skip t hrest 0
  | error e => rfl

/-- The bytes of a segment that the file has whole are as many as its file size. -/
theorem length_segment {file : List Byte} {offset n : ℕ} (h : offset + n ≤ file.length) :
    ((file.drop offset).take n).length = n := by
  rw [List.length_take, List.length_drop]
  omega

/-- A loadable segment that fits and whose bytes the file has is written at its address. -/
theorem loadSegment_of_fits {file : List Byte} {p : ProgramHeader} {s : State}
    (hl : p.segmentType = 1) (haddr : p.virtualAddress < 2 ^ 32)
    (hfile : p.fileOffset + p.fileSize ≤ file.length)
    (hfit : p.virtualAddress + p.fileSize ≤ s.cfg.memCapacity) :
    loadSegment file p s = .ok { s with
      mem := s.mem.writeBytes p.virtualAddress ((file.drop p.fileOffset).take p.fileSize) } := by
  have hbase : (BitVec.ofNat 32 p.virtualAddress).toNat = p.virtualAddress := by
    rw [BitVec.toNat_ofNat, Nat.mod_eq_of_lt haddr]
  rw [loadSegment_loadable s hl, if_pos hfit, if_pos hfile,
    loadBlock_of_fits (by rwa [hbase, length_segment hfile]), hbase]

/-- Settles O55: the one loadable segment is all that the table loads, over the reset state, and the
launch sets the pc to the entry. -/
theorem loaderCopiesOneSegment : Obligations.LoaderCopiesOneSegment := by
  unfold Obligations.LoaderCopiesOneSegment
  intro c file h ps p hm hh htable hlen hps hone hfile
  obtain ⟨hmem, hl⟩ : p ∈ ps ∧ p.segmentType = 1 := by
    have hp : p ∈ ps.filter (fun q => q.segmentType = 1) := by rw [hone]; simp
    simpa using hp
  have hload := launchElf_eq (c := c) hm hh htable
  rw [← hlen, loadSegments_of_filter_eq _ hps hone] at hload
  refine ⟨fun hover => ?overflow, fun hfit => ?fits⟩
  case overflow =>
    rw [loadSegment_of_overflow hl (by rwa [resetWith_cfg])] at hload
    exact ⟨_, _, hload⟩
  case fits =>
    obtain ⟨i, hi, rfl⟩ := List.getElem_of_mem hmem
    have haddr := (readProgramHeader_ok (hps i hi)).2
    rw [loadSegment_of_fits hl haddr hfile (by rwa [resetWith_cfg])] at hload
    have hm : (State.resetWith c).mem.wf := (loaded_nil c).canonical
    refine ⟨_, hload, ?entry, rfl, rfl, readReg_resetWith c, fun k hk => ?copied, fun a ha => ?zero⟩
    case entry =>
      rw [setPc_pc, BitVec.toNat_ofNat, Nat.mod_eq_of_lt (readElfHeader_ok hh).2]
    case copied =>
      rw [setPc_mem, Memory.read_writeBytes_inside hm _ (by rwa [length_segment hfile]),
        ← List.getElem?_eq_getElem, List.getElem?_take_of_lt hk, List.getElem?_drop]
    case zero => exact Memory.read_writeBytes_outside hm (by rwa [length_segment hfile])

end Sys2Proof.Machine
end

section
/-! PROOFS. The host's session: when each operation is open, the session's invariant, and the
commands that launch an image and run it (spec/70_reset_and_hazards.md R160, R168, R169). -/

namespace Sys2Proof.Machine

/-! When each operation is open. -/

theorem getElem?_readBytes (m : Memory) (a : ℕ) {n k : ℕ} (hk : k < n) :
    (m.readBytes a n)[k]? = some (m.read (a + k)) := by
  induction n generalizing a k with
  | zero => omega
  | succ n ih =>
    cases k with
    | zero => rfl
    | succ k =>
      rw [Memory.readBytes, List.getElem?_cons_succ, ih (a + 1) (by omega), Nat.add_right_comm]
      rfl

theorem request_readMem_of_fits {h : Session} (hp : h.phase ≠ .inRun) {a n : ℕ}
    (hfit : a + n ≤ h.core.cfg.memCapacity) :
    h.request (.readMem a n) = (.ok (.bytes (h.core.mem.readBytes a n)), h) := by
  rw [request_open (mem_outside_run hp)]
  simp only [Session.perform, State.hostReadMem, if_pos ((inBounds_iff h.core a n).2 hfit)]

theorem request_readMem_of_overflow {h : Session} (hp : h.phase ≠ .inRun) {a n : ℕ}
    (hover : h.core.cfg.memCapacity < a + n) :
    h.request (.readMem a n) = (.error (.readOutOfRange a n), h) := by
  have hout : ¬h.core.inBounds a n = true := by
    rw [inBounds_iff]
    omega
  rw [request_open (mem_outside_run hp)]
  simp only [Session.perform, State.hostReadMem, if_neg hout]

/-- LoadBlock, SetPc and Run are open in one phase, so it decides (R160). -/
theorem request_refused_of_ne_beforeRun {h : Session} {c : Command} (hc : c.phases = [.beforeRun])
    (hp : h.phase ≠ .beforeRun) : h.request c = (.error .notAllowed, h) :=
  request_refused (by simpa [hc] using hp)

theorem request_open_of_beforeRun {h : Session} {c : Command} (hc : c.phases = [.beforeRun])
    (hp : h.phase = .beforeRun) : h.request c = h.perform c :=
  request_open (by simp [hc, hp])

/-- A block asked for before the run is loaded, or leaves only reset and reads open (log 15). -/
theorem request_loadBlock {h : Session} (hp : h.phase = .beforeRun) (base : Word)
    (bytes : List Byte) :
    (∀ t, h.core.loadBlock base bytes = .ok t →
      h.request (.loadBlock base bytes) = (.ok .done, { h with core := t })) ∧
    ∀ e, h.core.loadBlock base bytes = .error e →
      h.request (.loadBlock base bytes) = (.error e, { h with phase := .loadFailed }) := by
  rw [request_open_of_beforeRun rfl hp]
  constructor
  · intro t ht
    simp only [Session.perform, ht]
  · intro e he
    simp only [Session.perform, he]

/-- Settles O58: the table of phases, and the effect of each operation where it is open. -/
theorem hostOperationsAreOpenOnlyWhenTheTableSays :
    Obligations.HostOperationsAreOpenOnlyWhenTheTableSays := by
  unfold Obligations.HostOperationsAreOpenOnlyWhenTheTableSays
  refine fun h => ⟨fun hp c => ?inRun, fun hp => ?refused, fun hp => ?beforeRun,
    fun hp => ?outsideRun⟩
  case inRun => exact request_refused (hp ▸ inRun_not_mem_phases c)
  case refused =>
    exact ⟨fun _ _ => request_refused_of_ne_beforeRun rfl hp,
      fun _ => request_refused_of_ne_beforeRun rfl hp, request_refused_of_ne_beforeRun rfl hp⟩
  case beforeRun =>
    exact ⟨request_loadBlock hp, fun _ => request_open_of_beforeRun rfl hp,
      request_open_of_beforeRun rfl hp⟩
  case outsideRun =>
    have hopen := mem_outside_run hp
    refine ⟨request_open hopen, fun i => request_open hopen, request_open hopen, request_open hopen,
      fun a n => ⟨fun hfit => ?_, fun hover => ⟨_, request_readMem_of_overflow hp hover⟩⟩⟩
    exact ⟨_, request_readMem_of_fits hp hfit, Memory.length_readBytes _ _ _,
      fun k hk => getElem?_readBytes _ _ hk⟩

/-! The session's invariant. -/

theorem new_inv {c : Config} (hc : c.wf) : (Session.new c).Inv :=
  ⟨resetWith_inv hc, by simp [Session.new]⟩

/-- A session whose core is running and which has not been marked as ended. -/
theorem Session.inv_of_running {p : Phase} {s : State} (hs : s.Inv) (hr : s.status = .running)
    (hp : p ≠ .afterRun) : Session.Inv { phase := p, core := s } :=
  ⟨hs, by simp [hr, hp]⟩

theorem loadBlock_ok {s t : State} {base : Word} {bytes : List Byte}
    (h : s.loadBlock base bytes = .ok t) : base.toNat + bytes.length ≤ s.cfg.memCapacity ∧
      t = { s with mem := s.mem.writeBytes base.toNat bytes } := by
  rw [loadBlock_eq] at h
  split at h
  case isTrue hfit =>
    cases h
    exact ⟨hfit, rfl⟩
  case isFalse => cases h

theorem loadBlock_status {s t : State} {base : Word} {bytes : List Byte}
    (h : s.loadBlock base bytes = .ok t) : t.status = s.status := by
  obtain ⟨-, rfl⟩ := loadBlock_ok h
  rfl

theorem loadBlock_inv {s t : State} (hs : s.Inv) {base : Word} {bytes : List Byte}
    (h : s.loadBlock base bytes = .ok t) : t.Inv := by
  obtain ⟨hfit, rfl⟩ := loadBlock_ok h
  exact ⟨Memory.writeBytes_wf _ hs.memory_canonical _, writeBytes_in_range hs hfit, hs.halted_iff,
    hs.capacity⟩

theorem setPc_inv {s : State} (hs : s.Inv) (v : Word) : (s.setPc v).Inv :=
  ⟨hs.memory_canonical, hs.memory_in_range, hs.halted_iff, hs.capacity⟩

/-- The operations open before the run leave a running core with a run yet to end, and the reads
leave the session as it was. -/
theorem perform_inv {h : Session} {c : Command} (hi : h.Inv) (hopen : h.phase ∈ c.phases) :
    (h.perform c).2.Inv := by
  have running (hp : h.phase ∈ [Phase.beforeRun]) : h.core.status = .running := by
    by_contra hr
    simp [hi.stopped_iff.1 hr] at hp
  cases c with
  | reset => exact Session.inv_of_running (resetWith_inv hi.core.capacity) rfl (by simp)
  | loadBlock base bytes =>
    have hr := running hopen
    rw [Session.perform]
    cases hb : h.core.loadBlock base bytes with
    | ok t => exact ⟨loadBlock_inv hi.core hb, by rw [loadBlock_status hb]; exact hi.stopped_iff⟩
    | error e => exact Session.inv_of_running hi.core hr (by simp)
  | setPc v => exact ⟨setPc_inv hi.core v, hi.stopped_iff⟩
  | run => exact Session.inv_of_running hi.core (running hopen) (by simp)
  | readMem a n =>
    rw [Session.perform]
    cases h.core.hostReadMem a n <;> exact hi
  | readReg | readPc | readStatus => exact hi

theorem request_inv {h : Session} (hi : h.Inv) (c : Command) : (h.request c).2.Inv := by
  by_cases hopen : h.phase ∈ c.phases
  case pos =>
    rw [request_open hopen]
    exact perform_inv hi hopen
  case neg =>
    rw [request_refused hopen]
    exact hi

theorem tick_of_ne_inRun {h : Session} (hp : h.phase ≠ .inRun) : h.tick = h := by
  obtain ⟨p, s⟩ := h
  cases p with
  | inRun => exact absurd rfl hp
  | beforeRun | loadFailed | afterRun => rfl

theorem tick_inv {h : Session} (hi : h.Inv) : h.tick.Inv := by
  by_cases hp : h.phase = .inRun
  case neg => rwa [tick_of_ne_inRun hp]
  case pos =>
    obtain ⟨p, s⟩ := h
    obtain rfl : p = .inRun := hp
    refine ⟨advance_inv hi.core, ?_⟩
    rw [tick_inRun]
    by_cases hr : s.advance.status = .running <;> simp [hr]

/-- Settles O59: the invariant at construction, under every request and at every step. -/
theorem sessionInvariantIsKept : Obligations.SessionInvariantIsKept := by
  unfold Obligations.SessionInvariantIsKept
  exact ⟨fun c => new_inv, fun h hi => ⟨request_inv hi, tick_inv hi, tick_of_ne_inRun⟩⟩

/-! The commands of a launch. -/

theorem phases_of_mem_loadBlocks {image : List (Word × List Byte)} {c : Command}
    (h : c ∈ image.map fun g => .loadBlock g.1 g.2) : c.phases = [.beforeRun] := by
  obtain ⟨g, -, rfl⟩ := List.mem_map.1 h
  rfl

/-- Loading segments leaves the status, and the session before the run. -/
theorem issue_loadImage_ok {s t : State} {image : List (Word × List Byte)}
    (h : s.loadImage image = .ok t) : t.status = s.status ∧
    Session.issue { phase := .beforeRun, core := s } (image.map fun g => .loadBlock g.1 g.2) =
      { phase := .beforeRun, core := t } := by
  induction image generalizing s with
  | nil =>
    cases h
    exact ⟨rfl, rfl⟩
  | cons g image ih =>
    rw [State.loadImage] at h
    cases hb : s.loadBlock g.1 g.2 with
    | ok u =>
      rw [hb] at h
      obtain ⟨hstatus, hissue⟩ := ih h
      rw [List.map_cons, Session.issue, (request_loadBlock rfl g.1 g.2).1 u hb]
      exact ⟨hstatus.trans (loadBlock_status hb), hissue⟩
    | error e =>
      rw [hb] at h
      cases h

/-- After a LoadBlock that failed, no command of a launch is open (log 15). -/
theorem issue_of_loadFailed {h : Session} (hp : h.phase = .loadFailed) {cs : List Command}
    (hcs : ∀ c ∈ cs, c.phases = [.beforeRun]) : h.issue cs = h := by
  induction cs with
  | nil => rfl
  | cons c cs ih =>
    rw [Session.issue, request_refused_of_ne_beforeRun (hcs c (by simp)) (by simp [hp])]
    exact ih fun d hd => hcs d (by simp [hd])

theorem issue_loadImage_error {s : State} {image : List (Word × List Byte)} {e : HostError}
    (h : s.loadImage image = .error e) :
    (Session.issue { phase := .beforeRun, core := s }
      (image.map fun g => .loadBlock g.1 g.2)).phase = .loadFailed := by
  induction image generalizing s with
  | nil => cases h
  | cons g image ih =>
    rw [State.loadImage] at h
    cases hb : s.loadBlock g.1 g.2 with
    | ok u =>
      rw [hb] at h
      rw [List.map_cons, Session.issue, (request_loadBlock rfl g.1 g.2).1 u hb]
      exact ih h
    | error d =>
      rw [List.map_cons, Session.issue, (request_loadBlock rfl g.1 g.2).2 d hb,
        issue_of_loadFailed rfl fun _ => phases_of_mem_loadBlocks]

/-! The run. -/

/-- The session of a core whose run has begun: in the run while the core is running. -/
def runSession (s : State) : Session :=
  { phase := if s.status = .running then .inRun else .afterRun, core := s }

theorem runSession_of_running {s : State} (h : s.status = .running) :
    runSession s = { phase := .inRun, core := s } := by
  rw [runSession, if_pos h]

theorem tick_runSession (s : State) : (runSession s).tick = runSession s.advance := by
  by_cases hr : s.status = .running
  case pos => rw [runSession_of_running hr, tick_inRun, runSession]
  case neg => rw [advance_of_stopped hr, runSession, if_neg hr, tick_afterRun]

theorem ticks_runSession (k : ℕ) (s : State) :
    Session.ticks k (runSession s) = runSession (State.advance^[k] s) := by
  induction k generalizing s with
  | zero => rfl
  | succ k ih => rw [Session.ticks, tick_runSession, ih, Function.iterate_succ_apply]

/-- Run has returned the end of the run, if it has ended (R169). -/
theorem returned_runSession (s : State) : (runSession s).returned =
    match s.ending with
    | .halted t => some (.halted t)
    | .faulted t f => some (.faulted t f)
    | .notEnded _ => none := by
  cases hs : s.status <;> simp [runSession, Session.returned, State.ending, hs]

theorem launch_ok {c : Config} {image : List (Word × List Byte)} {entry : Word} {s : State}
    (h : launch c image entry = .ok s) :
    ∃ t, (State.resetWith c).loadImage image = .ok t ∧ s = t.setPc entry := by
  rw [launch] at h
  cases ht : (State.resetWith c).loadImage image with
  | ok t =>
    rw [ht] at h
    cases h
    exact ⟨t, rfl, rfl⟩
  | error e =>
    rw [ht] at h
    cases h

theorem launch_error {c : Config} {image : List (Word × List Byte)} {entry : Word} {e : HostError}
    (h : launch c image entry = .error e) : (State.resetWith c).loadImage image = .error e := by
  rw [launch] at h
  cases ht : (State.resetWith c).loadImage image with
  | ok t =>
    rw [ht] at h
    cases h
  | error d =>
    rw [ht] at h
    exact h

/-- Settles O60: the blocks leave the launch's memory or a session in which nothing else is open,
and the session in the run follows the core step by step. -/
theorem hostCommandsLaunchAndRun : Obligations.HostCommandsLaunchAndRun := by
  unfold Obligations.HostCommandsLaunchAndRun
  refine fun c image entry => ⟨fun s hs => ⟨?begins, fun k => ?returns⟩, fun e he => ?fails⟩
  case begins =>
    obtain ⟨t, ht, rfl⟩ := launch_ok hs
    rw [issue_append, Session.new, (issue_loadImage_ok ht).2]
    rfl
  case returns =>
    obtain ⟨t, ht, rfl⟩ := launch_ok hs
    have hr : (t.setPc entry).status = .running := (issue_loadImage_ok ht).1
    rw [← runSession_of_running hr, ticks_runSession, run_eq_ending_iterate]
    exact returned_runSession _
  case fails =>
    have hfailed := issue_loadImage_error (launch_error he)
    rw [issue_append, Session.new, issue_of_loadFailed hfailed (by simp [Command.phases])]
    exact hfailed

end Sys2Proof.Machine
end
